-- ==== Sys2Proof/Word.lean ====
section
/-! DEFINITION. The bit-vector types of the spec's notation (00_scope.md R7): a byte of MEM and a 32-bit
word, which every register, descriptor word and datapath value is. -/

namespace Sys2Proof

/-- A 32-bit vector without sign (R7, R5 WORD_BITS = 32). -/
abbrev Word := BitVec 32

/-- An 8-bit byte, the only addressable unit of MEM (R30). -/
abbrev Byte := BitVec 8

end Sys2Proof
end

