-- ==== Sys2Proof/Syntax.lean ====
section
/-! DEFINITION. The descriptor (30_encoding.md R50), the operands of its two formats (R51) and the command set
(R53): one constructor of `Instr` per row of spec/opcode_table.json. -/

namespace Sys2Proof

/-- A descriptor: a value of 7 words of 32 bits, handed over as a whole; it lies in no memory and has no byte
order of its own (R50). -/
structure Descriptor where
  w0 : Word
  w1 : Word
  w2 : Word
  w3 : Word
  w4 : Word
  w5 : Word
  w6 : Word
  deriving DecidableEq, Repr

/-- A window (BASE, LEN): the LEN bytes of MEM from address BASE on (R32). -/
structure Window where
  base : Word
  len  : Word
  deriving DecidableEq, Repr

/-- Format K, the operands of LOADKEY: the key window (KEYBASE, KEYLEN) and ROUNDS_IN (R51). -/
structure KeyOperands where
  key      : Window
  roundsIn : Word
  deriving DecidableEq, Repr

/-- Format B, the operands of ENCRYPT and DECRYPT: the input window with INOFF and the output window with
OUTOFF (R51). -/
structure BlockOperands where
  input  : Window
  inOff  : Word
  output : Window
  outOff : Word
  deriving DecidableEq, Repr

/-- The closed command set of the engine (R53, R138). -/
inductive Instr where
  /-- LOADKEY: load a 128-bit key and a round count (R70). -/
  | loadkey (o : KeyOperands)
  /-- ENCRYPT: encrypt one 8-byte block (R95). -/
  | encrypt (o : BlockOperands)
  /-- DECRYPT: decrypt one 8-byte block (R105). -/
  | decrypt (o : BlockOperands)
  deriving DecidableEq, Repr

end Sys2Proof
end

