-- ==== Sys2Proof/Decode.lean ====
section
/-! DEFINITION. The decoder of descriptors (30_encoding.md R50 to R55), total on the 2^224 descriptor values and
rejecting by name, and the encoder written from the same field tables. -/

namespace Sys2Proof

/-- W0[7:0], the field OPCODE (R51). -/
def opcodeField (w0 : Word) : BitVec 8 := w0.extractLsb' 0 8

/-- W0[31:8], the field RSV0, which must be 0 (R51). -/
def reservedField (w0 : Word) : BitVec 24 := w0.extractLsb' 8 24

/-- OPCODE of LOADKEY (R53). -/
def opcodeLoadkey : BitVec 8 := 0x01#8

/-- OPCODE of ENCRYPT (R53). -/
def opcodeEncrypt : BitVec 8 := 0x02#8

/-- OPCODE of DECRYPT (R53). -/
def opcodeDecrypt : BitVec 8 := 0x03#8

/-- Why a descriptor is no command; both raise BadDescriptor (R55, R125 (a), (b)). -/
inductive DecodeError where
  /-- OPCODE is 0x00 or 0x04 .. 0xFF (R55). -/
  | reservedOpcode
  /-- OPCODE is a command's and RSV0 is not 0 (R55). -/
  | reservedBitsSet
  deriving DecidableEq, Repr

/-- Format K read from the descriptor: W1 = KEYBASE, W2 = KEYLEN, W3 = ROUNDS_IN; W4 to W6 are ignored
(R51, R52). -/
def Descriptor.keyOperands (d : Descriptor) : KeyOperands :=
  { key := { base := d.w1, len := d.w2 }, roundsIn := d.w3 }

/-- Format B read from the descriptor: W1 = INBASE, W2 = INLEN, W3 = INOFF, W4 = OUTBASE, W5 = OUTLEN,
W6 = OUTOFF (R51, R52). -/
def Descriptor.blockOperands (d : Descriptor) : BlockOperands :=
  { input  := { base := d.w1, len := d.w2 }, inOff  := d.w3
    output := { base := d.w4, len := d.w5 }, outOff := d.w6 }

/-- The command a descriptor stands for; only W0 selects it (R53), and every descriptor that is no command is
rejected by name (R55). -/
def decode (d : Descriptor) : Except DecodeError Instr :=
  if opcodeField d.w0 = opcodeLoadkey then
    if reservedField d.w0 = 0 then .ok (.loadkey d.keyOperands) else .error .reservedBitsSet
  else if opcodeField d.w0 = opcodeEncrypt then
    if reservedField d.w0 = 0 then .ok (.encrypt d.blockOperands) else .error .reservedBitsSet
  else if opcodeField d.w0 = opcodeDecrypt then
    if reservedField d.w0 = 0 then .ok (.decrypt d.blockOperands) else .error .reservedBitsSet
  else .error .reservedOpcode

/-- W0 of a command: OPCODE in the low 8 bits under a zero RSV0 (R51). -/
def encodeWord0 (opcode : BitVec 8) : Word := (0#24) ++ opcode

/-- The descriptor of a command (R51, R53); the words LOADKEY ignores are written 0 (log entry 9). -/
def encode : Instr → Descriptor
  | .loadkey o =>
    { w0 := encodeWord0 opcodeLoadkey
      w1 := o.key.base, w2 := o.key.len, w3 := o.roundsIn
      w4 := 0, w5 := 0, w6 := 0 }
  | .encrypt o =>
    { w0 := encodeWord0 opcodeEncrypt
      w1 := o.input.base, w2 := o.input.len, w3 := o.inOff
      w4 := o.output.base, w5 := o.output.len, w6 := o.outOff }
  | .decrypt o =>
    { w0 := encodeWord0 opcodeDecrypt
      w1 := o.input.base, w2 := o.input.len, w3 := o.inOff
      w4 := o.output.base, w5 := o.output.len, w6 := o.outOff }

/-- The descriptor whose 224 bits are `bits`, bit 0 the least significant bit of W0 and each later word's bits
counting on from the word before it (the numbering of spec/opcode_table.json). -/
def Descriptor.ofBits (bits : Nat) : Descriptor :=
  { w0 := BitVec.ofNat 32 bits
    w1 := BitVec.ofNat 32 (bits / 2 ^ 32)
    w2 := BitVec.ofNat 32 (bits / 2 ^ 64)
    w3 := BitVec.ofNat 32 (bits / 2 ^ 96)
    w4 := BitVec.ofNat 32 (bits / 2 ^ 128)
    w5 := BitVec.ofNat 32 (bits / 2 ^ 160)
    w6 := BitVec.ofNat 32 (bits / 2 ^ 192) }

/-- The 224 bits of a descriptor as one number, numbered as `Descriptor.ofBits` reads them. -/
def Descriptor.toBits (d : Descriptor) : Nat :=
  d.w0.toNat + 2 ^ 32 * (d.w1.toNat + 2 ^ 32 * (d.w2.toNat + 2 ^ 32 * (d.w3.toNat + 2 ^ 32 *
    (d.w4.toNat + 2 ^ 32 * (d.w5.toNat + 2 ^ 32 * d.w6.toNat)))))

/-- The command the decoder reads from an opcode-table word of `nbits` bits, every bit above them 0. -/
def decodeTableWord (nbits w : Nat) : Option Instr :=
  match decode (Descriptor.ofBits (w % 2 ^ nbits)) with
  | .ok i => some i
  | .error _ => none

end Sys2Proof
end

