-- ==== Sys2Proof/Config.lean ====
section
/-! DEFINITION. What the implementation fixes (00_scope.md R5, R6) and the one free value of the model
(70_reset_and_hazards.md R147). -/

namespace Sys2Proof.Config

/-- `AW`: the address width of MEM, 32 bits (R6, R30). -/
def addressWidth : Nat := 32

/-- The number of byte addresses of MEM, `2^AW` (R30). -/
def memSize : Nat := 2 ^ addressWidth

/-- `BLOCK_BYTES = 8` (R5). -/
def blockBytes : Nat := 8

/-- `KEY_BYTES = 16` (R5). -/
def keyBytes : Nat := 16

/-- `DELTA = 0x9E3779B9`, the round constant (R5). -/
def delta : Word := 0x9E3779B9#32

/-- FREE VALUE (log entry 3). Which of the 8 output bytes a block command had already written when a reset
abandoned it: bit i stands for the i-th byte of the output footprint. R147 leaves every byte old or new,
independently, so the mask has no body: nothing can evaluate it. Its argument is the counter
`State.freeCount`, so that two abandoned commands need not agree. -/
opaque landed : Nat → BitVec 8

end Sys2Proof.Config
end

