-- ==== Sys2Proof/Machine/Operands.lean ====
section
/-! DEFINITION. Operands: window checks, bounds checks and effective addresses (20_memory.md R32 to R34). All of
it is arithmetic on unbounded naturals, which never wraps. -/

namespace Sys2Proof

/-- A window is well-formed when `BASE + LEN <= 2^AW` (R33). -/
def Window.wellFormed (w : Window) : Bool :=
  decide (w.base.toNat + w.len.toNat ≤ Config.memSize)

/-- The bounds check of a block: `OFF + 8 <= LEN` (R33). -/
def Window.holdsBlock (w : Window) (off : Word) : Bool :=
  decide (off.toNat + Config.blockBytes ≤ w.len.toNat)

/-- The window check of LOADKEY (R33, 40_loadkey.md R70). -/
def KeyOperands.windowsWellFormed (o : KeyOperands) : Bool :=
  o.key.wellFormed

/-- The window check of a block command (R33, 42_encrypt.md R95). -/
def BlockOperands.windowsWellFormed (o : BlockOperands) : Bool :=
  o.input.wellFormed && o.output.wellFormed

/-- Both buffers have 8 bytes from their offsets on (42_encrypt.md R96 (3)). -/
def BlockOperands.buffersHoldBlock (o : BlockOperands) : Bool :=
  o.input.holdsBlock o.inOff && o.output.holdsBlock o.outOff

/-- KEYLEN is exactly 16 (40_loadkey.md R70). -/
def KeyOperands.keyLenIsKeyBytes (o : KeyOperands) : Bool :=
  decide (o.key.len.toNat = Config.keyBytes)

/-- The address of key byte 0, KEYBASE (R34). -/
def KeyOperands.keyAddr (o : KeyOperands) : Nat := o.key.base.toNat

/-- The address of input byte 0, `A = INBASE + INOFF` (R34, R38). -/
def BlockOperands.inAddr (o : BlockOperands) : Nat := o.input.base.toNat + o.inOff.toNat

/-- The address of output byte 0, `B = OUTBASE + OUTOFF` (R34, R38). -/
def BlockOperands.outAddr (o : BlockOperands) : Nat := o.output.base.toNat + o.outOff.toNat

end Sys2Proof
end

