-- ==== Sys2Proof/Machine/State.lean ====
section
/-! DEFINITION. All the state the spec gives the machine (10_state.md R10 to R24), the interfaces' contents
(30_encoding.md R60) and the model's own histories and free-value counter; the state right after reset (R23). -/

namespace Sys2Proof.Machine

/-- The status codes a response carries, under the spec's names (30_encoding.md R57). -/
inductive Status where
  /-- 0x00: the command succeeded. -/
  | ok
  /-- 0x01: LOADKEY named a key window that is not 16 bytes long (60_exceptions.md R121). -/
  | invalidKeyLength
  /-- 0x02: a block command's buffer has fewer than 8 bytes left at its offset (R122). -/
  | bufferTooShort
  /-- 0x03: reserved and never produced (R123). -/
  | invalidRounds
  /-- 0x04: a block command before any successful LOADKEY since reset (R124). -/
  | noKey
  /-- 0x05: a descriptor that is no command, or a window that is not well-formed (R125). -/
  | badDescriptor
  deriving DecidableEq, Repr

/-- The engine's phase (10_state.md R21, 30_encoding.md R61): IDLE, or BUSY with the descriptor it captured. -/
inductive Phase where
  | idle
  | busy (captured : Descriptor)
  deriving DecidableEq, Repr

/-- One thing the outside does to the system, in the order it happens: what waits on the command interface and
the reset input (30_encoding.md R60), and the host's own writes to MEM, which it makes between commands
(20_memory.md R44). -/
inductive Input where
  /-- The host offers a descriptor on the command interface. -/
  | command (d : Descriptor)
  /-- Reset is asserted (70_reset_and_hazards.md R145, R146). -/
  | reset
  /-- The host offers a descriptor, and after the engine has accepted it reset is asserted before the response
  (R147). -/
  | resetDuring (d : Descriptor)
  /-- The host writes one byte of MEM, outside any command (20_memory.md R44, 70_reset_and_hazards.md R148). -/
  | hostWrite (addr : Word) (value : Byte)
  deriving DecidableEq, Repr

/-- One byte access of the engine on its memory interface, with the byte moved (30_encoding.md R60 (3),
20_memory.md R40, R42). -/
inductive Access where
  | read  (addr : Nat) (value : Byte)
  | write (addr : Nat) (value : Byte)
  deriving DecidableEq, Repr

/-- MEM (10_state.md R24, 20_memory.md R30) as address and byte pairs, addresses strictly rising and no entry
equal to what an unlisted address reads as. -/
abbrev Memory := List Host.Cell

/-- The key words K[0..3] (10_state.md R10). -/
structure KeySchedule where
  k0 : Word
  k1 : Word
  k2 : Word
  k3 : Word
  deriving DecidableEq, Repr

/-- The working registers of the round datapath: V0, V1, SUM and the iteration counter RC (10_state.md R14, R15,
R16). -/
structure Work where
  v0  : Word
  v1  : Word
  sum : Word
  rc  : Word
  deriving DecidableEq, Repr

/-- Why the machine stops with a fault. -/
inductive Fault where
  /-- Raised by the byte accesses `memRead` and `memWrite` at an address that is not below `2^32`, which does not
  exist (20_memory.md R30). Safe: it is a stop. By R33 no command gets so far (its windows are checked before its
  first access), so no step ends in it. -/
  | outsideMem (addr : Nat)
  deriving DecidableEq, Repr

/-- Why the model gives no meaning. -/
inductive Refusal where
  /-- Raised by an arm of `exec` whose instruction has no meaning yet. Safe. No arm raises it in this model. -/
  | notModelled (mnemonic : String)
  /-- Raised by `validate`, the host-side comparison outside the block, when `actual` is shorter than `expected`:
  the spec gives the case no meaning (44_validate.md R116). Safe. No step raises it. -/
  | validateActualShort
  deriving DecidableEq, Repr

/-- The state of the system: the engine's registers, MEM, what waits on the interfaces and what has passed over
them. -/
structure State where
  /-- K[0..3] (R10). -/
  k         : KeySchedule
  /-- ROUNDS (R11). -/
  rounds    : Word
  /-- KEY_VALID (R12). -/
  keyValid  : Bool
  /-- V0, V1, SUM, RC (R14, R15, R16). -/
  work      : Work
  /-- The phase and, while BUSY, the captured descriptor (R21, R61). -/
  phase     : Phase
  /-- MEM (R24, R30). -/
  mem       : Memory
  /-- What the outside does next, first thing first (R60 (1), (4)). -/
  inputs    : List Input
  /-- The responses given so far, oldest first (R60 (2)). -/
  responses : List Status
  /-- The model's own record of the byte accesses of completed commands, oldest first (R42; log entry 6). -/
  accesses  : List Access
  /-- The model's own counter of free values used (log entry 3). -/
  freeCount : Nat
  deriving DecidableEq, Repr

/-- The machine right after reset (R23): KEY_VALID = 0 and phase IDLE. K, ROUNDS, V0, V1, SUM and RC have no reset
value in the spec and are 0 here (DESIGN CHOICE, log entry 1); MEM lists nothing (log entry 2). -/
def State.reset : State where
  k         := { k0 := 0, k1 := 0, k2 := 0, k3 := 0 }
  rounds    := 0
  keyValid  := false
  work      := { v0 := 0, v1 := 0, sum := 0, rc := 0 }
  phase     := .idle
  mem       := []
  inputs    := []
  responses := []
  accesses  := []
  freeCount := 0

end Sys2Proof.Machine
end

