-- ==== Sys2Proof/Machine/Flags.lean ====
section
/-! DEFINITION. The one flag, KEY_VALID, and the status of a command (60_exceptions.md R120 to R128). There are no
condition codes (10_state.md R18). The status is a function of KEY_VALID and the descriptor alone (R128). -/

namespace Sys2Proof.Machine

/-- The 8-bit code of a status (30_encoding.md R57). -/
def Status.code : Status → BitVec 8
  | .ok               => 0x00#8
  | .invalidKeyLength => 0x01#8
  | .bufferTooShort   => 0x02#8
  | .invalidRounds    => 0x03#8
  | .noKey            => 0x04#8
  | .badDescriptor    => 0x05#8

/-- The checks of LOADKEY in the order of 40_loadkey.md R70 (R127). -/
def loadkeyStatus (o : KeyOperands) : Status :=
  if !o.windowsWellFormed then .badDescriptor
  else if !o.keyLenIsKeyBytes then .invalidKeyLength
  else .ok

/-- The checks of ENCRYPT and DECRYPT in the order of 42_encrypt.md R96 and 43_decrypt.md R108 (R127). -/
def blockStatus (keyValid : Bool) (o : BlockOperands) : Status :=
  if !o.windowsWellFormed then .badDescriptor
  else if !keyValid then .noKey
  else if !o.buffersHoldBlock then .bufferTooShort
  else .ok

/-- The status of a command (R128). -/
def instrStatus (keyValid : Bool) : Instr → Status
  | .loadkey o => loadkeyStatus o
  | .encrypt o => blockStatus keyValid o
  | .decrypt o => blockStatus keyValid o

/-- The status of a descriptor: BadDescriptor where it is no command (R125 (a), (b)), else the command's (R128). -/
def descriptorStatus (keyValid : Bool) (d : Descriptor) : Status :=
  match decode d with
  | .ok i    => instrStatus keyValid i
  | .error _ => .badDescriptor

end Sys2Proof.Machine
end

