-- ==== Sys2Proof/Machine/Ops.lean ====
section
/-! DEFINITION. The named operations over MEM, the engine's registers and its interfaces: byte and word accesses
(20_memory.md R30, R36, R37), the response and the raising of an error (60_exceptions.md R126), reset
(10_state.md R23). -/

namespace Sys2Proof.Machine

/-! ### MEM as data -/

/-- What an address that the memory lists no byte for reads as. The spec gives MEM no contents at power-up; 0 is a
DESIGN CHOICE (log entry 2). -/
def Memory.unlisted : Byte := 0

/-- The byte at an address. -/
def Memory.read : Memory → Nat → Byte
  | [], _ => Memory.unlisted
  | (b, v) :: m, a => if a = b then v else Memory.read m a

/-- The memory with one byte changed, in canonical form. -/
def Memory.write : Memory → Nat → Byte → Memory
  | [], a, v => if v = Memory.unlisted then [] else [(a, v)]
  | (b, w) :: m, a, v =>
    if a < b then
      if v = Memory.unlisted then (b, w) :: m else (a, v) :: (b, w) :: m
    else if a = b then
      if v = Memory.unlisted then m else (a, v) :: m
    else (b, w) :: Memory.write m a v

/-- The canonical form from the address `lo` on: addresses rise strictly, are addresses of MEM (R30), and no entry
is what an unlisted address reads as. -/
def Memory.wfFrom : Nat → Memory → Bool
  | _, [] => true
  | lo, (b, w) :: m =>
    decide (lo ≤ b) && decide (b < Config.memSize) && decide (w ≠ Memory.unlisted) && Memory.wfFrom (b + 1) m

/-- The canonical form of a memory. -/
def Memory.wf (m : Memory) : Bool := Memory.wfFrom 0 m

/-- `b0 ++ b1 ++ b2 ++ b3`, the byte of the lowest address in bits 31:24 (R36). -/
def unpack (b0 b1 b2 b3 : Byte) : Word := b0 ++ b1 ++ b2 ++ b3

/-- `v[31:24]`, the byte stored at the lowest address (R37). -/
def packByte0 (v : Word) : Byte := v.extractLsb' 24 8

/-- `v[23:16]` (R37). -/
def packByte1 (v : Word) : Byte := v.extractLsb' 16 8

/-- `v[15:8]` (R37). -/
def packByte2 (v : Word) : Byte := v.extractLsb' 8 8

/-- `v[7:0]` (R37). -/
def packByte3 (v : Word) : Byte := v.extractLsb' 0 8

/-- The big-endian word at an address, as a value (R36). -/
def Memory.read4 (m : Memory) (a : Nat) : Word :=
  unpack (m.read a) (m.read (a + 1)) (m.read (a + 2)) (m.read (a + 3))

/-- The memory with a big-endian word stored at an address, the lowest address first (R37). -/
def Memory.write4 (m : Memory) (a : Nat) (v : Word) : Memory :=
  (((m.write a (packByte0 v)).write (a + 1) (packByte1 v)).write (a + 2) (packByte2 v)).write (a + 3) (packByte3 v)

/-! ### The accesses of the engine -/

/-- `MemRead(a, 1)` (R30): the byte, and the access in the record. -/
def memRead (a : Nat) (s : State) : Except Fault (Byte × State) :=
  if a < Config.memSize then
    .ok (s.mem.read a, { s with accesses := s.accesses ++ [.read a (s.mem.read a)] })
  else .error (.outsideMem a)

/-- `MemWrite(a, 1, v)` (R30): the byte written, and the access in the record. -/
def memWrite (a : Nat) (v : Byte) (s : State) : Except Fault State :=
  if a < Config.memSize then
    .ok { s with mem := s.mem.write a v, accesses := s.accesses ++ [.write a v] }
  else .error (.outsideMem a)

/-- `MemRead(a, 4)`: four byte reads in ascending address order, combined big-endian (R36). -/
def memRead4 (a : Nat) (s : State) : Except Fault (Word × State) := do
  let (b0, s) ← memRead a s
  let (b1, s) ← memRead (a + 1) s
  let (b2, s) ← memRead (a + 2) s
  let (b3, s) ← memRead (a + 3) s
  .ok (unpack b0 b1 b2 b3, s)

/-- `MemWrite(a, 4, v)`: four byte writes in ascending address order, most significant byte first (R37). -/
def memWrite4 (a : Nat) (v : Word) (s : State) : Except Fault State := do
  let s ← memWrite a (packByte0 v) s
  let s ← memWrite (a + 1) (packByte1 v) s
  let s ← memWrite (a + 2) (packByte2 v) s
  memWrite (a + 3) (packByte3 v) s

/-- The input of a block command: V0 from bytes 0..3 and V1 from bytes 4..7 (R38). -/
def readBlock (a : Nat) (s : State) : Except Fault ((Word × Word) × State) := do
  let (v0, s) ← memRead4 a s
  let (v1, s) ← memRead4 (a + 4) s
  .ok ((v0, v1), s)

/-- The output of a block command: V0, then V1 (R38). -/
def writeBlock (a : Nat) (v0 v1 : Word) (s : State) : Except Fault State := do
  let s ← memWrite4 a v0 s
  memWrite4 (a + 4) v1 s

/-- The key: `K[j] = MemRead(KEYBASE + 4j, 4)` for j = 0..3, in that order (R38, 40_loadkey.md R71). -/
def readKey (a : Nat) (s : State) : Except Fault (KeySchedule × State) := do
  let (k0, s) ← memRead4 a s
  let (k1, s) ← memRead4 (a + 4) s
  let (k2, s) ← memRead4 (a + 8) s
  let (k3, s) ← memRead4 (a + 12) s
  .ok ({ k0 := k0, k1 := k1, k2 := k2, k3 := k3 }, s)

/-! ### The end of a command -/

/-- The engine emits a response and returns to IDLE (30_encoding.md R61). -/
def State.respond (s : State) (status : Status) : State :=
  { s with phase := .idle, responses := s.responses ++ [status] }

/-- `raise E`, the one way an error is taken (60_exceptions.md R126): the command ends with the response E and
writes no register and no byte of MEM. There is no return from it (R131). -/
def State.raise (s : State) (e : Status) : State := s.respond e

/-- The outcome of an effect built from accesses. -/
def toOutcome : Except Fault State → Host.Outcome State Fault Refusal
  | .ok s    => .next s
  | .error f => .fault f

/-! ### Reset and the host's writes -/

/-- The effect of reset on the engine (10_state.md R23, 70_reset_and_hazards.md R145): KEY_VALID and the phase as
the spec says, every register without a reset value as `State.reset` has it (log entry 1), MEM and the
interfaces' contents untouched. -/
def State.resetEngine (s : State) : State :=
  { s with
    k        := State.reset.k
    rounds   := State.reset.rounds
    keyValid := State.reset.keyValid
    work     := State.reset.work
    phase    := State.reset.phase }

/-- The host's write of one byte of MEM between commands (20_memory.md R44); the engine makes no access. -/
def State.hostWrite (s : State) (addr : Word) (value : Byte) : State :=
  { s with mem := s.mem.write addr.toNat value }

/-- The 8 bytes of an output footprint, each old or, where the mask has its bit, as in `done`
(70_reset_and_hazards.md R147). -/
def landBytes (mask : BitVec 8) (b : Nat) (done : Memory) (m : Memory) : Memory :=
  [0, 1, 2, 3, 4, 5, 6, 7].foldl
    (fun m j => if mask.getLsbD j then m.write (b + j) (done.read (b + j)) else m) m

end Sys2Proof.Machine
end

