-- ==== Sys2Proof/Machine/Datapath.lean ====
section
/-! DEFINITION. The Feistel round datapath and its loop (41_datapath.md R80 to R94): the arithmetic every block
command uses. -/

namespace Sys2Proof.Machine

/-! ### The 32-bit primitives -/

/-- `add32(a, b) = (a + b) mod 2^32` (R80). -/
def add32 (a b : Word) : Word := a + b

/-- `sub32(a, b) = (a - b) mod 2^32` (R81). -/
def sub32 (a b : Word) : Word := a - b

/-- `shl32(v, n) = (v * 2^n) mod 2^32` (R8, R82). -/
def shl32 (v : Word) (n : Nat) : Word := v <<< n

/-- `lsr32(v, n) = floor(v / 2^n)`, zero-fill (R8, R83). -/
def lsr32 (v : Word) (n : Nat) : Word := v >>> n

/-- Bitwise exclusive or (R84). -/
def xor32 (a b : Word) : Word := a ^^^ b

/-- Bitwise and (R84). -/
def and32 (a b : Word) : Word := a &&& b

/-- `mul32(a, b) = (a * b) mod 2^32` (R85). -/
def mul32 (a b : Word) : Word := a * b

/-! ### Mixing and key term -/

/-- `MIX(v) = add32(xor32(shl32(v, 4), lsr32(v, 5)), v)`: XOR first, then the addition (R86). -/
def mix (v : Word) : Word := add32 (xor32 (shl32 v 4) (lsr32 v 5)) v

/-- `SEL_LO(s) = and32(s, 3)` (R88). -/
def selLo (s : Word) : Word := and32 s 3

/-- `SEL_HI(s) = and32(lsr32(s, 11), 3)` (R88). -/
def selHi (s : Word) : Word := and32 (lsr32 s 11) 3

/-- `K[i]`, the 4-to-1 multiplexer of the key words (R88, R92): a selector is the two low bits of its word and
cannot be out of range. -/
def KeySchedule.word (k : KeySchedule) (sel : Word) : Word :=
  if sel.getLsbD 1 then
    if sel.getLsbD 0 then k.k3 else k.k2
  else
    if sel.getLsbD 0 then k.k1 else k.k0

/-- `KT_LO(s) = add32(s, K[SEL_LO(s)])` (R87). -/
def ktLo (k : KeySchedule) (s : Word) : Word := add32 s (k.word (selLo s))

/-- `KT_HI(s) = add32(s, K[SEL_HI(s)])` (R87). -/
def ktHi (k : KeySchedule) (s : Word) : Word := add32 s (k.word (selHi s))

/-- `F_LO(v, s) = xor32(MIX(v), KT_LO(s))` (R89). -/
def fLo (k : KeySchedule) (v s : Word) : Word := xor32 (mix v) (ktLo k s)

/-- `F_HI(v, s) = xor32(MIX(v), KT_HI(s))` (R89). -/
def fHi (k : KeySchedule) (v s : Word) : Word := xor32 (mix v) (ktHi k s)

/-! ### Half-rounds and the updates of SUM and RC -/

/-- E0: `V0 <- add32(V0, F_LO(V1, SUM))` (R89). -/
def halfE0 (k : KeySchedule) (w : Work) : Work := { w with v0 := add32 w.v0 (fLo k w.v1 w.sum) }

/-- E1: `V1 <- add32(V1, F_HI(V0, SUM))` (R89). -/
def halfE1 (k : KeySchedule) (w : Work) : Work := { w with v1 := add32 w.v1 (fHi k w.v0 w.sum) }

/-- D1: `V1 <- sub32(V1, F_HI(V0, SUM))` (R89). -/
def halfD1 (k : KeySchedule) (w : Work) : Work := { w with v1 := sub32 w.v1 (fHi k w.v0 w.sum) }

/-- D0: `V0 <- sub32(V0, F_LO(V1, SUM))` (R89). -/
def halfD0 (k : KeySchedule) (w : Work) : Work := { w with v0 := sub32 w.v0 (fLo k w.v1 w.sum) }

/-- `SUM <- add32(SUM, DELTA)` (R90). -/
def sumUp (w : Work) : Work := { w with sum := add32 w.sum Config.delta }

/-- `SUM <- sub32(SUM, DELTA)` (R90). -/
def sumDown (w : Work) : Work := { w with sum := sub32 w.sum Config.delta }

/-- RC advances by one per iteration (10_state.md R17; log entry 5). -/
def countIteration (w : Work) : Work := { w with rc := add32 w.rc 1 }

/-- One iteration of ENCRYPT: `E0; SUM <- add32(SUM, DELTA); E1` (R90). -/
def encryptIteration (k : KeySchedule) (w : Work) : Work :=
  countIteration (halfE1 k (sumUp (halfE0 k w)))

/-- One iteration of DECRYPT: `D1; SUM <- sub32(SUM, DELTA); D0` (R90). -/
def decryptIteration (k : KeySchedule) (w : Work) : Work :=
  countIteration (halfD0 k (sumDown (halfD1 k w)))

/-! ### The loop -/

/-- `repeat n times: body` (00_scope.md R8): exactly n times in sequence, zero times when n = 0. -/
def repeatTimes : Nat → (Work → Work) → Work → Work
  | 0, _, w => w
  | n + 1, body, w => repeatTimes n body (body w)

/-- The working registers after the unpack and step 2 of a block command: V0, V1 from the block, the initial SUM,
RC at 0 (42_encrypt.md R95, 43_decrypt.md R105). -/
def Work.start (v0 v1 sum : Word) : Work := { v0 := v0, v1 := v1, sum := sum, rc := 0 }

/-- Steps 2 and 3 of ENCRYPT: SUM <- 0, then ROUNDS iterations (42_encrypt.md R95). -/
def encryptWork (k : KeySchedule) (rounds v0 v1 : Word) : Work :=
  repeatTimes rounds.toNat (encryptIteration k) (Work.start v0 v1 0)

/-- Steps 2 and 3 of DECRYPT: SUM <- mul32(DELTA, ROUNDS), then ROUNDS iterations (43_decrypt.md R105, R106). -/
def decryptWork (k : KeySchedule) (rounds v0 v1 : Word) : Work :=
  repeatTimes rounds.toNat (decryptIteration k) (Work.start v0 v1 (mul32 Config.delta rounds))

end Sys2Proof.Machine
end

