-- ==== Sys2Proof/Machine/Block.lean ====
section
/-! DEFINITION. What ENCRYPT and DECRYPT share (42_encrypt.md R95, 43_decrypt.md R105): the checks, the unpack of
the input, the pack of the output; they differ in the work done between. And the two meanings. -/

namespace Sys2Proof.Machine

/-- The effect of a block command whose checks pass: all 8 reads, the work over V0 and V1, then all 8 writes
(20_memory.md R41). -/
def blockEffect (work : KeySchedule → Word → Word → Word → Work) (o : BlockOperands) (s : State) :
    Except Fault State := do
  let (v, s) ← readBlock o.inAddr s
  let w := work s.k s.rounds v.1 v.2
  let s ← writeBlock o.outAddr w.v0 w.v1 { s with work := w }
  .ok (s.respond .ok)

/-- A block command: the checks in order (42_encrypt.md R96), then the effect; an error writes nothing (R126). -/
def blockCommand (work : KeySchedule → Word → Word → Word → Work) (o : BlockOperands) (s : State) :
    Host.Outcome State Fault Refusal :=
  match blockStatus s.keyValid o with
  | .ok => toOutcome (blockEffect work o s)
  | e   => .next (s.raise e)

/-- ENCRYPT (42_encrypt.md R95). -/
def execEncrypt (o : BlockOperands) (s : State) : Host.Outcome State Fault Refusal :=
  blockCommand encryptWork o s

/-- DECRYPT (43_decrypt.md R105). -/
def execDecrypt (o : BlockOperands) (s : State) : Host.Outcome State Fault Refusal :=
  blockCommand decryptWork o s

end Sys2Proof.Machine
end

