-- ==== Sys2Proof/Machine/LoadKey.lean ====
section
/-! DEFINITION. LOADKEY, the key schedule expander (40_loadkey.md R70 to R73). -/

namespace Sys2Proof.Machine

/-- The effect of a LOADKEY whose checks pass: the 16 key bytes are read, K[0..3] and ROUNDS are written together
and KEY_VALID is set (R70). -/
def loadkeyEffect (o : KeyOperands) (s : State) : Except Fault State := do
  let (k, s) ← readKey o.keyAddr s
  .ok ({ s with k := k, rounds := o.roundsIn, keyValid := true }.respond .ok)

/-- LOADKEY (R70): the checks in order, then the effect; an error writes nothing (R72). -/
def execLoadkey (o : KeyOperands) (s : State) : Host.Outcome State Fault Refusal :=
  match loadkeyStatus o with
  | .ok => toOutcome (loadkeyEffect o s)
  | e   => .next (s.raise e)

end Sys2Proof.Machine
end

