-- ==== Sys2Proof/Machine/Dispatch.lean ====
section
/-! DEFINITION. The meaning of every command, one arm per constructor of Instr. -/

namespace Sys2Proof.Machine

def exec (i : Instr) (s : State) : Host.Outcome State Fault Refusal :=
  match i with
  -- 40_loadkey.md R70
  | .loadkey o => Sys2Proof.Machine.execLoadkey o s
  -- 42_encrypt.md R95
  | .encrypt o => Sys2Proof.Machine.execEncrypt o s
  -- 43_decrypt.md R105
  | .decrypt o => Sys2Proof.Machine.execDecrypt o s

end Sys2Proof.Machine
end

