-- ==== Sys2Proof/Machine/Sequencer.lean ====
section
/-! DEFINITION. The engine between command and response (30_encoding.md R61): accepting a descriptor, performing
it, and abandoning it when reset is asserted while BUSY (70_reset_and_hazards.md R147). -/

namespace Sys2Proof.Machine

/-- The engine accepts a descriptor: it captures the whole of it and becomes BUSY (R61). -/
def State.accept (s : State) (d : Descriptor) : State := { s with phase := .busy d }

/-- A captured descriptor is performed: the meaning of the command it stands for, or BadDescriptor
(30_encoding.md R55). -/
def performDescriptor (d : Descriptor) (s : State) : Host.Outcome State Fault Refusal :=
  match decode d with
  | .ok i    => exec i s
  | .error _ => .next (s.raise .badDescriptor)

/-- Where a descriptor's 8 output bytes begin, if performing it in a state with this KEY_VALID writes any: a block
command whose checks pass (20_memory.md R40). -/
def outputFootprint (keyValid : Bool) (d : Descriptor) : Option Nat :=
  match decode d with
  | .ok (.loadkey _) => none
  | .ok (.encrypt o) => if blockStatus keyValid o = .ok then some o.outAddr else none
  | .ok (.decrypt o) => if blockStatus keyValid o = .ok then some o.outAddr else none
  | .error _         => none

/-- MEM after a command was abandoned: each byte of its output footprint old or as the completed command would have
left it, as the free value `Config.landed` says (R147). -/
def abandonedMem (d : Descriptor) (s : State) : Memory :=
  match outputFootprint s.keyValid d, performDescriptor d s with
  | some b, .next t => landBytes (Config.landed s.freeCount) b t.mem s.mem
  | _, _            => s.mem

/-- Reset while BUSY with a captured descriptor (R147): no response, the engine as after any reset, MEM as above. -/
def abandonCommand (d : Descriptor) (s : State) : State :=
  { s.resetEngine with mem := abandonedMem d s, freeCount := s.freeCount + 1 }

/-- The system takes the next of its inputs. IDLE, it accepts and performs a command (00_scope.md R9), or takes a
reset, or the host writes; with no input it waits (10_state.md R17). BUSY, it takes no command (R61): it completes
the one it has, unless reset comes first. -/
def advance (s : State) : Host.Outcome State Fault Refusal :=
  match s.phase, s.inputs with
  | .idle, [] => .next s
  | .idle, .command d :: rest => performDescriptor d ({ s with inputs := rest }.accept d)
  | .idle, .reset :: rest => .next { s with inputs := rest }.resetEngine
  | .idle, .resetDuring d :: rest => .next (abandonCommand d ({ s with inputs := rest }.accept d))
  | .idle, .hostWrite a v :: rest => .next ({ s with inputs := rest }.hostWrite a v)
  | .busy d, .reset :: rest => .next (abandonCommand d { s with inputs := rest })
  | .busy d, _ => performDescriptor d s

/-- The state in which the engine is IDLE and the next input is the descriptor whose bits are the low `nbits` bits
of `w`. -/
def offerWord (s : State) (nbits w : Nat) : State :=
  { s with phase := .idle, inputs := .command (Descriptor.ofBits (w % 2 ^ nbits)) :: s.inputs }

end Sys2Proof.Machine
end

