-- ==== Sys2Proof/Machine/Step.lean ====
section
/-! DEFINITION. One step of the system (00_scope.md R9): one accepted command, one reset, one write of the host, or
a wait. -/

namespace Sys2Proof.Machine

/-- One architectural step (R9). -/
def step (s : State) : Host.Outcome State Fault Refusal := advance s

/-- The state whose next step accepts and performs the descriptor with these bits (R50, R61): commands are offered
from outside, one value each (log entry 7). -/
def State.withFetchWord (s : State) (nbits w : Nat) : State := offerWord s nbits w

end Sys2Proof.Machine
end

