-- ==== Sys2Proof/Machine/Validate.lean ====
section
/-! DEFINITION. `validate`, the host-side byte comparison (44_validate.md R115 to R117). It is outside the block: no
command reaches it, it reads no register and writes nothing. -/

namespace Sys2Proof.Machine

/-- Every position of `expected` matches; positions of `actual` beyond them are ignored (R115). -/
def matchesPrefix : List Byte → List Byte → Bool
  | [], _ => true
  | _ :: _, [] => false
  | e :: es, a :: as => if e = a then matchesPrefix es as else false

/-- `validate(expected, actual)` (R115); with `actual` shorter than `expected` it has no result (R116, log
entry 10). -/
def validate (expected actual : List Byte) : Except Refusal Bool :=
  if actual.length < expected.length then .error .validateActualShort
  else .ok (matchesPrefix expected actual)

/-- The `n` bytes of MEM from an address on, as the host reads them. -/
def Memory.bytes (m : Memory) (a : Nat) : Nat → List Byte
  | 0 => []
  | n + 1 => m.read a :: Memory.bytes m (a + 1) n

end Sys2Proof.Machine
end

