-- ==== Sys2Proof/Reference.lean ====
section
/-! DEFINITION. The cipher of 41_datapath.md to 43_decrypt.md on natural numbers, for the statements to compare the
machine with: no registers, no accumulator, every sum reduced modulo 2^32 as 00_scope.md R8 writes it. -/

namespace Sys2Proof.Reference

open Sys2Proof.Machine

/-- The big-endian number of the four bytes from an address on: `b0 * 2^24 + b1 * 2^16 + b2 * 2^8 + b3`
(20_memory.md R36). -/
def beWord (m : Memory) (a : Nat) : Nat :=
  (m.read a).toNat * 2 ^ 24 + (m.read (a + 1)).toNat * 2 ^ 16 + (m.read (a + 2)).toNat * 2 ^ 8 +
    (m.read (a + 3)).toNat

/-- `MIX(v)` (41_datapath.md R86). -/
def mix (v : Nat) : Nat := (((v * 16 % 2 ^ 32) ^^^ (v / 32)) + v) % 2 ^ 32

/-- `mul32(DELTA, i)`, the value of SUM after i additions of DELTA (41_datapath.md R94). -/
def sumAt (i : Nat) : Nat := 0x9E3779B9 * i % 2 ^ 32

/-- `K[i]`. -/
def keyWord (k : KeySchedule) : Nat → Nat
  | 0 => k.k0.toNat
  | 1 => k.k1.toNat
  | 2 => k.k2.toNat
  | _ => k.k3.toNat

/-- `KT_LO` at SUM = mul32(DELTA, i): the key word is selected by bits 1:0 of SUM (R87, R88). -/
def termLo (k : KeySchedule) (i : Nat) : Nat := (sumAt i + keyWord k (sumAt i % 4)) % 2 ^ 32

/-- `KT_HI` at SUM = mul32(DELTA, i): the key word is selected by bits 12:11 of SUM (R87, R88). -/
def termHi (k : KeySchedule) (i : Nat) : Nat := (sumAt i + keyWord k (sumAt i / 2048 % 4)) % 2 ^ 32

/-- Iteration i of ENCRYPT on a block: E0 at SUM = mul32(DELTA, i), then E1 at SUM = mul32(DELTA, i + 1) (R89, R90,
R94). -/
def encryptRound (k : KeySchedule) (i : Nat) (v : Nat × Nat) : Nat × Nat :=
  let v0 := (v.1 + (mix v.2 ^^^ termLo k i)) % 2 ^ 32
  let v1 := (v.2 + (mix v0 ^^^ termHi k (i + 1))) % 2 ^ 32
  (v0, v1)

/-- What undoes iteration i: D1 at SUM = mul32(DELTA, i + 1), then D0 at SUM = mul32(DELTA, i) (R89, R90, R94). -/
def decryptRound (k : KeySchedule) (i : Nat) (v : Nat × Nat) : Nat × Nat :=
  let v1 := (v.2 + (2 ^ 32 - (mix v.1 ^^^ termHi k (i + 1)))) % 2 ^ 32
  let v0 := (v.1 + (2 ^ 32 - (mix v1 ^^^ termLo k i))) % 2 ^ 32
  (v0, v1)

/-- The block after `n` iterations of ENCRYPT, those numbered 0 to n - 1 (R90). -/
def encrypt (k : KeySchedule) : Nat → Nat × Nat → Nat × Nat
  | 0, v => v
  | n + 1, v => encryptRound k n (encrypt k n v)

/-- The block after `n` iterations of DECRYPT with ROUNDS = n, which undo those numbered n - 1 to 0
(43_decrypt.md R107). -/
def decrypt (k : KeySchedule) : Nat → Nat × Nat → Nat × Nat
  | 0, v => v
  | n + 1, v => decrypt k n (decryptRound k n v)

end Sys2Proof.Reference
end

