-- ==== Sys2Proof/Safety.lean ====
section
/-! DEFINITION. The terms the claims use: the invariant of the machine, what a step performs or abandons, and the
records of accesses. -/

namespace Sys2Proof.Machine

/-- The address of an access. -/
def Access.addr : Access → Nat
  | .read a _  => a
  | .write a _ => a

/-- The invariant of the machine between steps. -/
structure State.Inv (s : State) : Prop where
  /-- MEM is in canonical form. -/
  memWf : s.mem.wf = true
  /-- No command is in progress between steps (10_state.md R21). -/
  idle : s.phase = .idle
  /-- Every access of the engine was at an address of MEM (20_memory.md R33). -/
  accessesInMem : ∀ x ∈ s.accesses, x.addr < Config.memSize
  /-- No response was InvalidRounds (60_exceptions.md R123). -/
  noInvalidRounds : .invalidRounds ∉ s.responses

/-- The descriptor the next step performs up to its response, if it performs one (30_encoding.md R61). -/
def State.performs (s : State) : Option Descriptor :=
  match s.phase, s.inputs with
  | .idle, .command d :: _ => some d
  | .busy _, .reset :: _   => none
  | .busy d, _             => some d
  | _, _                   => none

/-- The descriptor the next step abandons because reset is asserted while BUSY, if there is one
(70_reset_and_hazards.md R147). -/
def State.abandons (s : State) : Option Descriptor :=
  match s.phase, s.inputs with
  | .idle, .resetDuring d :: _ => some d
  | .busy d, .reset :: _       => some d
  | _, _                       => none

/-- The record of `MemRead(a, 4)` on this memory: four reads in ascending address order (20_memory.md R36, R42). -/
def reads4 (m : Memory) (a : Nat) : List Access :=
  [.read a (m.read a), .read (a + 1) (m.read (a + 1)), .read (a + 2) (m.read (a + 2)), .read (a + 3) (m.read (a + 3))]

/-- The record of `MemWrite(a, 4, v)`: four writes in ascending address order (R37, R42). -/
def writes4 (a : Nat) (v : Word) : List Access :=
  [.write a (packByte0 v), .write (a + 1) (packByte1 v), .write (a + 2) (packByte2 v), .write (a + 3) (packByte3 v)]

end Sys2Proof.Machine
end

