-- ==== Sys2Proof/WellFormed.lean ====
section
/-! DEFINITION. When a command is well-formed (20_memory.md R33): every window it names is. A command that is not
ends with BadDescriptor (60_exceptions.md R125 (c)); its encoding is a command's all the same. -/

namespace Sys2Proof

/-- Every window the command names is well-formed (R33, R125 (c)). -/
def Instr.wellFormed : Instr → Bool
  | .loadkey o => o.windowsWellFormed
  | .encrypt o => o.windowsWellFormed
  | .decrypt o => o.windowsWellFormed

end Sys2Proof
end

