-- ==== Sys2Proof/Certificates/Slice0/Obligations.lean ====
section
/-! DEFINITION. The statements of this model, for the provers. Each docstring names the rules of spec/ a statement
rests on; where a statement is the model's own choice, it says so and names the log entry. -/

open Sys2Proof Sys2Proof.Machine

/-! ### Descriptors and the step -/

/-- 30_encoding.md R53: the three rows of the opcode table, with the operand words of R51, at every value of the
operand words; W0 alone selects the command. -/
def Obligations.OpcodeTableSelectsCommand : Prop :=
  ∀ a b c d e f : Word,
    decode ⟨0x00000001#32, a, b, c, d, e, f⟩ = .ok (.loadkey ⟨⟨a, b⟩, c⟩) ∧
    decode ⟨0x00000002#32, a, b, c, d, e, f⟩ = .ok (.encrypt ⟨⟨a, b⟩, c, ⟨d, e⟩, f⟩) ∧
    decode ⟨0x00000003#32, a, b, c, d, e, f⟩ = .ok (.decrypt ⟨⟨a, b⟩, c, ⟨d, e⟩, f⟩)

/-- R55: every descriptor whose OPCODE is 0x01, 0x02 or 0x03 under a zero RSV0 is a command, and every other one is
none and ends with BadDescriptor, whatever its other words hold, with no other effect. -/
def Obligations.DescriptorsAreCommandsOrBad : Prop :=
  ∀ d : Descriptor,
    if (d.w0.toNat % 256 = 1 ∨ d.w0.toNat % 256 = 2 ∨ d.w0.toNat % 256 = 3) ∧ d.w0.toNat / 256 = 0 then
      ∃ i, decode d = .ok i
    else
      (∃ e, decode d = .error e) ∧
      ∀ s rest, s.phase = .idle → s.inputs = .command d :: rest →
        step s = .next { s with inputs := rest, responses := s.responses ++ [.badDescriptor] }

/-- R51, R52, R53: what a decoded command says of its descriptor, every word of its format bit for bit; the words
LOADKEY ignores are the only ones it says nothing of. -/
def Obligations.DecodeReadsEveryField : Prop :=
  ∀ d i, decode d = .ok i ↔
    match i with
    | .loadkey _ => encode i = { d with w4 := 0, w5 := 0, w6 := 0 }
    | .encrypt _ => encode i = d
    | .decrypt _ => encode i = d

/-- Decode and encode agree on the 224 bits of a descriptor, numbered as the opcode table numbers them, for every
command and every value of every operand (R50 to R53). -/
def Obligations.TableBitsRoundTrip : Prop :=
  ∀ i : Instr, (encode i).toBits < 2 ^ 224 ∧ decodeTableWord 224 (encode i).toBits = some i

/-- 30_encoding.md R61, 00_scope.md R9: a step that accepts a descriptor of a command is that command's exec, in the
state that has taken the descriptor off the command interface and is BUSY with it; a step that is already BUSY with
one is its exec, unless reset comes first; and the step after `withFetchWord` runs the word placed. -/
def Obligations.StepRunsDecodedCommand : Prop :=
  (∀ s d rest i, s.phase = .idle → s.inputs = .command d :: rest → decode d = .ok i →
    step s = exec i { s with inputs := rest, phase := .busy d }) ∧
  (∀ s d i, s.phase = .busy d → (∀ rest, s.inputs ≠ .reset :: rest) → decode d = .ok i → step s = exec i s) ∧
  (∀ (s : State) (n w : Nat) (i : Instr), decodeTableWord n w = some i →
    step (s.withFetchWord n w) = exec i { s with phase := .busy (Descriptor.ofBits (w % 2 ^ n)) })

/-! ### LOADKEY -/

/-- 40_loadkey.md R70: the encoding (W4 to W6 at every value), the checks in order and each one's effect, and the
effect of success; K[j] is the big-endian number of key bytes 4j to 4j+3 (R71). Everything not named stays. -/
def Obligations.LoadkeyMeaning : Prop :=
  ∀ (o : KeyOperands) (s : State),
    (∀ w4 w5 w6, decode ⟨0x00000001#32, o.key.base, o.key.len, o.roundsIn, w4, w5, w6⟩ = .ok (.loadkey o)) ∧
    exec (.loadkey o) s = .next (
      if o.key.base.toNat + o.key.len.toNat > 2 ^ 32 then
        { s with phase := .idle, responses := s.responses ++ [.badDescriptor] }
      else if o.key.len.toNat ≠ 16 then
        { s with phase := .idle, responses := s.responses ++ [.invalidKeyLength] }
      else
        { s with
          k := { k0 := BitVec.ofNat 32 (Reference.beWord s.mem o.key.base.toNat)
                 k1 := BitVec.ofNat 32 (Reference.beWord s.mem (o.key.base.toNat + 4))
                 k2 := BitVec.ofNat 32 (Reference.beWord s.mem (o.key.base.toNat + 8))
                 k3 := BitVec.ofNat 32 (Reference.beWord s.mem (o.key.base.toNat + 12)) }
          rounds := o.roundsIn
          keyValid := true
          phase := .idle
          responses := s.responses ++ [.ok]
          accesses := s.accesses ++ (List.range 16).map
            (fun j => Access.read (o.key.base.toNat + j) (s.mem.read (o.key.base.toNat + j))) })

/-- 40_loadkey.md R72: a LOADKEY that raises BadDescriptor or InvalidKeyLength (the one response it gives, by the order
of R70) reads no byte of MEM and writes none of K[0..3], ROUNDS, KEY_VALID; a key that was valid stays valid and
unchanged. -/
def Obligations.FailedLoadkeyKeepsKey : Prop :=
  ∀ (o : KeyOperands) (s : State),
    o.key.base.toNat + o.key.len.toNat > 2 ^ 32 ∨ o.key.len.toNat ≠ 16 →
    ∃ t, exec (.loadkey o) s = .next t ∧
      t.responses = s.responses ++
        [if o.key.base.toNat + o.key.len.toNat > 2 ^ 32 then .badDescriptor else .invalidKeyLength] ∧
      t.k = s.k ∧ t.rounds = s.rounds ∧ t.keyValid = s.keyValid ∧ t.accesses = s.accesses ∧ t.mem = s.mem

/-! ### ENCRYPT and DECRYPT -/

/-- 42_encrypt.md R95: the encoding, the checks in order and each one's effect, and the effect of success: the output
bytes are the big-endian words of the reference cipher applied to the input bytes as they were before the command,
for every key, every ROUNDS and every placement of the two footprints; K, ROUNDS and KEY_VALID stay. -/
def Obligations.EncryptMeaning : Prop :=
  ∀ (o : BlockOperands) (s : State), s.mem.wf = true →
    decode ⟨0x00000002#32, o.input.base, o.input.len, o.inOff, o.output.base, o.output.len, o.outOff⟩
      = .ok (.encrypt o) ∧
    if o.input.base.toNat + o.input.len.toNat > 2 ^ 32 ∨ o.output.base.toNat + o.output.len.toNat > 2 ^ 32 then
      exec (.encrypt o) s = .next { s with phase := .idle, responses := s.responses ++ [.badDescriptor] }
    else if s.keyValid = false then
      exec (.encrypt o) s = .next { s with phase := .idle, responses := s.responses ++ [.noKey] }
    else if o.inOff.toNat + 8 > o.input.len.toNat ∨ o.outOff.toNat + 8 > o.output.len.toNat then
      exec (.encrypt o) s = .next { s with phase := .idle, responses := s.responses ++ [.bufferTooShort] }
    else
      let a := o.input.base.toNat + o.inOff.toNat
      let b := o.output.base.toNat + o.outOff.toNat
      let c := Reference.encrypt s.k s.rounds.toNat (Reference.beWord s.mem a, Reference.beWord s.mem (a + 4))
      ∃ t, exec (.encrypt o) s = .next t ∧
        t = { s with phase := .idle, responses := s.responses ++ [.ok], mem := t.mem, work := t.work
                     accesses := t.accesses } ∧
        Reference.beWord t.mem b = c.1 ∧ Reference.beWord t.mem (b + 4) = c.2 ∧
        (∀ x, x < b ∨ b + 8 ≤ x → t.mem.read x = s.mem.read x)

/-- 43_decrypt.md R105, R106: the same of DECRYPT; the reference decryption starts at SUM = `mul32(DELTA, ROUNDS)` for
every ROUNDS. -/
def Obligations.DecryptMeaning : Prop :=
  ∀ (o : BlockOperands) (s : State), s.mem.wf = true →
    decode ⟨0x00000003#32, o.input.base, o.input.len, o.inOff, o.output.base, o.output.len, o.outOff⟩
      = .ok (.decrypt o) ∧
    if o.input.base.toNat + o.input.len.toNat > 2 ^ 32 ∨ o.output.base.toNat + o.output.len.toNat > 2 ^ 32 then
      exec (.decrypt o) s = .next { s with phase := .idle, responses := s.responses ++ [.badDescriptor] }
    else if s.keyValid = false then
      exec (.decrypt o) s = .next { s with phase := .idle, responses := s.responses ++ [.noKey] }
    else if o.inOff.toNat + 8 > o.input.len.toNat ∨ o.outOff.toNat + 8 > o.output.len.toNat then
      exec (.decrypt o) s = .next { s with phase := .idle, responses := s.responses ++ [.bufferTooShort] }
    else
      let a := o.input.base.toNat + o.inOff.toNat
      let b := o.output.base.toNat + o.outOff.toNat
      let c := Reference.decrypt s.k s.rounds.toNat (Reference.beWord s.mem a, Reference.beWord s.mem (a + 4))
      ∃ t, exec (.decrypt o) s = .next t ∧
        t = { s with phase := .idle, responses := s.responses ++ [.ok], mem := t.mem, work := t.work
                     accesses := t.accesses } ∧
        Reference.beWord t.mem b = c.1 ∧ Reference.beWord t.mem (b + 4) = c.2 ∧
        (∀ x, x < b ∨ b + 8 ≤ x → t.mem.read x = s.mem.read x)

/-- What a block command that succeeds leaves in V0, V1, SUM and RC. The rules call the four registers scratch that does
not survive a command (10_state.md R14 to R16), so that they keep the values the loop ended with is the model's choice
(log entry 5). The values themselves are those of the loop: the output block, `mul32(DELTA, ROUNDS)` after ENCRYPT and 0
after DECRYPT, ROUNDS iterations. -/
def Obligations.WorkRegistersKeepLoopValues : Prop :=
  ∀ (o : BlockOperands) (s : State), blockStatus s.keyValid o = .ok →
    let v := (Reference.beWord s.mem o.inAddr, Reference.beWord s.mem (o.inAddr + 4))
    (∃ t, exec (.encrypt o) s = .next t ∧
      (t.work.v0.toNat, t.work.v1.toNat) = Reference.encrypt s.k s.rounds.toNat v ∧
      t.work.sum.toNat = Reference.sumAt s.rounds.toNat ∧ t.work.rc = s.rounds) ∧
    (∃ t, exec (.decrypt o) s = .next t ∧
      (t.work.v0.toNat, t.work.v1.toNat) = Reference.decrypt s.k s.rounds.toNat v ∧
      t.work.sum = 0 ∧ t.work.rc = s.rounds)

/-- 20_memory.md R41, R42: the record of a command's byte accesses (the record is the model's own, log entry 6). A
command that ends with an error makes none; a LOADKEY makes 16 reads and no write; a block command makes its 8 reads,
then its 8 writes, each in ascending address order, each reading what the byte held before the command and writing what
it holds after. -/
def Obligations.AccessesInOrder : Prop :=
  ∀ (i : Instr) (s : State), s.mem.wf = true →
    ∃ t, exec i s = .next t ∧
      t.accesses = s.accesses ++
        (if instrStatus s.keyValid i = .ok then
          match i with
          | .loadkey o => (List.range 16).map (fun j => Access.read (o.keyAddr + j) (s.mem.read (o.keyAddr + j)))
          | .encrypt o | .decrypt o =>
            (List.range 8).map (fun j => Access.read (o.inAddr + j) (s.mem.read (o.inAddr + j))) ++
            (List.range 8).map (fun j => Access.write (o.outAddr + j) (t.mem.read (o.outAddr + j)))
        else [])

/-- 42_encrypt.md R98, 43_decrypt.md R109: with ROUNDS = 0 both block commands are the identity with status OK, the
output bytes being the input bytes as they were before the command; the checks of R96 are still made; and the work of
DECRYPT starts at SUM = mul32(DELTA, 0) = 0 and runs no iteration. -/
def Obligations.RoundsZeroIsIdentity : Prop :=
  (∀ (k : KeySchedule) (v0 v1 : Word),
    mul32 Config.delta 0 = 0 ∧ decryptWork k 0 v0 v1 = Work.start v0 v1 0 ∧
    encryptWork k 0 v0 v1 = Work.start v0 v1 0) ∧
  ∀ (o : BlockOperands) (s : State), s.mem.wf = true → s.rounds = 0 →
    ∀ i, i = Instr.encrypt o ∨ i = Instr.decrypt o →
      if o.input.base.toNat + o.input.len.toNat > 2 ^ 32 ∨ o.output.base.toNat + o.output.len.toNat > 2 ^ 32 then
        exec i s = .next { s with phase := .idle, responses := s.responses ++ [.badDescriptor] }
      else if s.keyValid = false then
        exec i s = .next { s with phase := .idle, responses := s.responses ++ [.noKey] }
      else if o.inOff.toNat + 8 > o.input.len.toNat ∨ o.outOff.toNat + 8 > o.output.len.toNat then
        exec i s = .next { s with phase := .idle, responses := s.responses ++ [.bufferTooShort] }
      else
        ∃ t, exec i s = .next t ∧
          t = { s with phase := .idle, responses := s.responses ++ [.ok], mem := t.mem, work := t.work
                       accesses := t.accesses } ∧
          (∀ j, j < 8 → t.mem.read (o.outAddr + j) = s.mem.read (o.inAddr + j)) ∧
          (∀ x, x < o.outAddr ∨ o.outAddr + 8 ≤ x → t.mem.read x = s.mem.read x)

/-- 70_reset_and_hazards.md R158, the round-trip law: whatever the footprints and whatever ran between, a DECRYPT that
reads what an ENCRYPT wrote, under the same K and ROUNDS, writes what the ENCRYPT read. For every ROUNDS. -/
def Obligations.DecryptUndoesEncrypt : Prop :=
  ∀ (s : State) (oE oD : BlockOperands), s.mem.wf = true → blockStatus s.keyValid oE = .ok →
    ∃ t, exec (.encrypt oE) s = .next t ∧ t.responses = s.responses ++ [.ok] ∧
      ∀ u : State, u.mem.wf = true → u.k = s.k → u.rounds = s.rounds → blockStatus u.keyValid oD = .ok →
        (∀ j, j < 8 → u.mem.read (oD.inAddr + j) = t.mem.read (oE.outAddr + j)) →
        ∃ w, exec (.decrypt oD) u = .next w ∧ w.responses = u.responses ++ [.ok] ∧
          ∀ j, j < 8 → w.mem.read (oD.outAddr + j) = s.mem.read (oE.inAddr + j)

/-- 43_decrypt.md R110 (e): the other direction, ENCRYPT(DECRYPT(B)) = B. -/
def Obligations.EncryptUndoesDecrypt : Prop :=
  ∀ (s : State) (oD oE : BlockOperands), s.mem.wf = true → blockStatus s.keyValid oD = .ok →
    ∃ t, exec (.decrypt oD) s = .next t ∧ t.responses = s.responses ++ [.ok] ∧
      ∀ u : State, u.mem.wf = true → u.k = s.k → u.rounds = s.rounds → blockStatus u.keyValid oE = .ok →
        (∀ j, j < 8 → u.mem.read (oE.inAddr + j) = t.mem.read (oD.outAddr + j)) →
        ∃ w, exec (.encrypt oE) u = .next w ∧ w.responses = u.responses ++ [.ok] ∧
          ∀ j, j < 8 → w.mem.read (oE.outAddr + j) = s.mem.read (oD.inAddr + j)

/-- 42_encrypt.md R99 (f), 43_decrypt.md R110 (b): with ROUNDS = 1 neither block command depends on K[1] or K[2]. -/
def Obligations.OneRoundIgnoresMiddleKeyWords : Prop :=
  ∀ (o : BlockOperands) (s : State) (k1 k2 : Word), s.rounds = 1 →
    ∀ i, i = Instr.encrypt o ∨ i = Instr.decrypt o →
      ∃ t t', exec i s = .next t ∧ exec i { s with k := { s.k with k1 := k1, k2 := k2 } } = .next t' ∧
        t'.mem = t.mem ∧ t'.responses = t.responses

/-- 70_reset_and_hazards.md R160, the frame law: outside the 8 bytes of a successful block command's output footprint,
and everywhere after a failed command or a LOADKEY, MEM reads as before; and the output bytes depend on the operands
only through the 8 bytes read and the place of the 8 bytes written. -/
def Obligations.FrameLaw : Prop :=
  (∀ (i : Instr) (s : State), ∃ t, exec i s = .next t ∧
    ∀ x,
      (match i with
        | .loadkey _ => True
        | .encrypt o | .decrypt o => instrStatus s.keyValid i ≠ .ok ∨ x < o.outAddr ∨ o.outAddr + 8 ≤ x) →
      t.mem.read x = s.mem.read x) ∧
  (∀ (o o' : BlockOperands) (s s' : State), s.mem.wf = true → s'.mem.wf = true →
    blockStatus s.keyValid o = .ok → blockStatus s'.keyValid o' = .ok → s'.k = s.k → s'.rounds = s.rounds →
    (∀ j, j < 8 → s'.mem.read (o'.inAddr + j) = s.mem.read (o.inAddr + j)) →
    (∃ t t', exec (.encrypt o) s = .next t ∧ exec (.encrypt o') s' = .next t' ∧
      ∀ j, j < 8 → t'.mem.read (o'.outAddr + j) = t.mem.read (o.outAddr + j)) ∧
    (∃ t t', exec (.decrypt o) s = .next t ∧ exec (.decrypt o') s' = .next t' ∧
      ∀ j, j < 8 → t'.mem.read (o'.outAddr + j) = t.mem.read (o.outAddr + j)))

/-! ### The datapath -/

/-- 41_datapath.md R80, R81, R85: addition, subtraction and the product are the residues modulo 2^32. -/
def Obligations.SumsWrapModulo : Prop :=
  ∀ a b : Word,
    (add32 a b).toNat = (a.toNat + b.toNat) % 2 ^ 32 ∧
    ((sub32 a b).toNat : Int) = ((a.toNat : Int) - b.toNat) % 2 ^ 32 ∧
    sub32 a b = add32 a (add32 (xor32 b 0xFFFFFFFF#32) 1) ∧
    (mul32 a b).toNat = (a.toNat * b.toNat) % 2 ^ 32

/-- R82, R83: the left shift by 4 and the logical right shift by 5, as numbers and bit by bit; and the zero-fill right
shift by 11 of the second key selector. -/
def Obligations.ShiftsMoveBits : Prop :=
  ∀ v : Word,
    (shl32 v 4).toNat = (v.toNat * 16) % 2 ^ 32 ∧
    (lsr32 v 5).toNat = v.toNat / 32 ∧ (lsr32 v 11).toNat = v.toNat / 2048 ∧
    (∀ i, i < 32 → (shl32 v 4).getLsbD i = (decide (4 ≤ i) && v.getLsbD (i - 4))) ∧
    (∀ i, i < 32 → (lsr32 v 5).getLsbD i = (decide (i ≤ 26) && v.getLsbD (i + 5)))

/-- R86: MIX is the XOR of the two shifts first, then the addition of v; the rule's own examples. The grouping is the
spec's choice between two readings of its source (90_conflicts.md C3); it marks its ground as general knowledge. -/
def Obligations.MixXorsThenAdds : Prop :=
  (∀ v : Word, (mix v).toNat = Reference.mix v.toNat) ∧
  mix 0x00000000#32 = 0x00000000#32 ∧ mix 0x00000001#32 = 0x00000011#32 ∧
  mix 0x80000000#32 = 0x84000000#32 ∧ mix 0xFFFFFFFF#32 = 0xF800000E#32 ∧
  mix 0x12345678#32 = 0x36091BAB#32 ∧ mix 0x89ABCDEF#32 = 0x289D4E8E#32

/-- R88, R87: the selectors are bits 1:0 and 12:11 of SUM, the selected key word is K at that number, and the key
terms add SUM to it modulo 2^32. -/
def Obligations.SelectorsPickKeyWord : Prop :=
  ∀ (k : KeySchedule) (s : Word),
    (selLo s).toNat = s.toNat % 4 ∧ (selHi s).toNat = s.toNat / 2 ^ 11 % 4 ∧
    (k.word (selLo s)).toNat = Reference.keyWord k (s.toNat % 4) ∧
    (k.word (selHi s)).toNat = Reference.keyWord k (s.toNat / 2 ^ 11 % 4) ∧
    (ktLo k s).toNat = (s.toNat + Reference.keyWord k (s.toNat % 4)) % 2 ^ 32 ∧
    (ktHi k s).toNat = (s.toNat + Reference.keyWord k (s.toNat / 2 ^ 11 % 4)) % 2 ^ 32

/-- R91: for fixed K and SUM, D0 undoes E0 and D1 undoes E1, and the other way round. -/
def Obligations.HalfRoundsInvert : Prop :=
  ∀ (k : KeySchedule) (w : Work),
    halfD0 k (halfE0 k w) = w ∧ halfD1 k (halfE1 k w) = w ∧
    halfE0 k (halfD0 k w) = w ∧ halfE1 k (halfD1 k w) = w

/-- R94, which the spec marks as derived from R80, R81, R85, R90 and R106: SUM in the course of both
commands. Iteration i of ENCRYPT runs E0 at `mul32(DELTA, i)` and E1 at
`mul32(DELTA, i + 1)`; iteration j of DECRYPT runs D1 at `mul32(DELTA, ROUNDS - j)` and D0 at
`mul32(DELTA, ROUNDS - j - 1)`; at their ends SUM is `mul32(DELTA, ROUNDS)` and 0. -/
def Obligations.SumSequence : Prop :=
  ∀ (k : KeySchedule) (rounds v0 v1 : Word) (i : Nat), i < rounds.toNat →
    (let w := repeatTimes i (encryptIteration k) (Work.start v0 v1 0)
     w.sum.toNat = Reference.sumAt i ∧ (sumUp (halfE0 k w)).sum.toNat = Reference.sumAt (i + 1)) ∧
    (let w := repeatTimes i (decryptIteration k) (Work.start v0 v1 (mul32 Config.delta rounds))
     w.sum.toNat = Reference.sumAt (rounds.toNat - i) ∧
     (sumDown (halfD1 k w)).sum.toNat = Reference.sumAt (rounds.toNat - i - 1)) ∧
    (encryptWork k rounds v0 v1).sum.toNat = Reference.sumAt rounds.toNat ∧
    (decryptWork k rounds v0 v1).sum = 0

/-- 10_state.md R16, R17, 41_datapath.md R90: both loops perform exactly ROUNDS iterations, none when ROUNDS = 0, and
RC counts them from 0 to ROUNDS. That RC counts up is the model's reading (log entry 5): no command reads it. -/
def Obligations.RoundsIterationsCounted : Prop :=
  ∀ (k : KeySchedule) (rounds v0 v1 : Word),
    encryptWork k rounds v0 v1 = (encryptIteration k)^[rounds.toNat] (Work.start v0 v1 0) ∧
    decryptWork k rounds v0 v1 =
      (decryptIteration k)^[rounds.toNat] (Work.start v0 v1 (mul32 Config.delta rounds)) ∧
    (encryptWork k rounds v0 v1).rc = rounds ∧ (decryptWork k rounds v0 v1).rc = rounds

/-! ### MEM -/

/-- 20_memory.md R36: `MemRead(a, 4)` is four byte reads, the byte of the lowest address in bits 31:24. -/
def Obligations.UnpackIsBigEndian : Prop :=
  ∀ (a : Nat) (s : State), a + 4 ≤ 2 ^ 32 →
    ∃ w t, memRead4 a s = .ok (w, t) ∧ w.toNat = Reference.beWord s.mem a ∧
      t = { s with accesses := s.accesses ++
              (List.range 4).map (fun j => Access.read (a + j) (s.mem.read (a + j))) }

/-- R37: `MemWrite(a, 4, v)` stores the base-256 digits of v, most significant first, and changes no other byte;
reading it back gives v, and writing back a word that was read changes nothing (the spec marks the two inverses as
derived). -/
def Obligations.PackInvertsUnpack : Prop :=
  ∀ (a : Nat) (v : Word) (s : State), s.mem.wf = true → a + 4 ≤ 2 ^ 32 →
    (∃ t, memWrite4 a v s = .ok t ∧
      (t.mem.read a).toNat = v.toNat / 2 ^ 24 ∧ (t.mem.read (a + 1)).toNat = v.toNat / 2 ^ 16 % 256 ∧
      (t.mem.read (a + 2)).toNat = v.toNat / 2 ^ 8 % 256 ∧ (t.mem.read (a + 3)).toNat = v.toNat % 256 ∧
      (∀ x, x < a ∨ a + 4 ≤ x → t.mem.read x = s.mem.read x) ∧
      t = { s with mem := t.mem, accesses := t.accesses } ∧
      ∃ u, memRead4 a t = .ok (v, u)) ∧
    (∃ w t u, memRead4 a s = .ok (w, t) ∧ memWrite4 a w t = .ok u ∧ u.mem = s.mem)

/-- 20_memory.md R30, R48: MEM is plain memory: a byte reads as last written, a write changes the byte written only,
and equal contents are equal data (the canonical form is kept and is unique). -/
def Obligations.MemIsPlainStorage : Prop :=
  ∀ m : Memory, m.wf = true →
    (∀ a v, a < 2 ^ 32 → (m.write a v).wf = true ∧ ∀ x, (m.write a v).read x = if x = a then v else m.read x) ∧
    (∀ n : Memory, n.wf = true → (∀ x, m.read x = n.read x) → m = n)

/-- 20_memory.md R33: sums never wrap. A window is well-formed when BASE + LEN, as naturals, is at most 2^32; a command
that names one that is not ends with BadDescriptor, whatever else holds; the bounds check of a block fails at every OFF
with `OFF + 8 > LEN` as naturals; and where both checks pass, all 8 addresses of each footprint are addresses of MEM. -/
def Obligations.WindowSumsNeverWrap : Prop :=
  (∀ (i : Instr) (s : State),
    (i.wellFormed = true ↔
      match i with
      | .loadkey o => o.key.base.toNat + o.key.len.toNat ≤ 2 ^ 32
      | .encrypt o | .decrypt o =>
        o.input.base.toNat + o.input.len.toNat ≤ 2 ^ 32 ∧ o.output.base.toNat + o.output.len.toNat ≤ 2 ^ 32) ∧
    (i.wellFormed = false →
      exec i s = .next { s with phase := .idle, responses := s.responses ++ [.badDescriptor] })) ∧
  (∀ (w : Window) (off : Word), w.holdsBlock off = true ↔ off.toNat + 8 ≤ w.len.toNat) ∧
  (∀ (o : BlockOperands) (keyValid : Bool), blockStatus keyValid o = .ok →
    ∀ j, j < 8 → o.inAddr + j < 2 ^ 32 ∧ o.outAddr + j < 2 ^ 32)

/-! ### Errors -/

/-- 30_encoding.md R57: the numbers of the six named statuses. -/
def Obligations.StatusCodeNumbers : Prop :=
  Status.ok.code = 0x00#8 ∧ Status.invalidKeyLength.code = 0x01#8 ∧ Status.bufferTooShort.code = 0x02#8 ∧
  Status.invalidRounds.code = 0x03#8 ∧ Status.noKey.code = 0x04#8 ∧ Status.badDescriptor.code = 0x05#8

/-- 60_exceptions.md R127 (with the causes of R121, R122, R124 and R125): the status of every descriptor, the first
condition in this order deciding it. -/
def Obligations.StatusPriority : Prop :=
  ∀ (s : State) (d : Descriptor), s.performs = some d →
    ∃ t, step s = .next t ∧ t.responses = s.responses ++ [
      if (d.w0.toNat % 256 ≠ 1 ∧ d.w0.toNat % 256 ≠ 2 ∧ d.w0.toNat % 256 ≠ 3) ∨ d.w0.toNat / 256 ≠ 0 then
        .badDescriptor
      else if d.w0.toNat % 256 = 1 then
        if d.w1.toNat + d.w2.toNat > 2 ^ 32 then .badDescriptor
        else if d.w2.toNat ≠ 16 then .invalidKeyLength
        else .ok
      else
        if d.w1.toNat + d.w2.toNat > 2 ^ 32 ∨ d.w4.toNat + d.w5.toNat > 2 ^ 32 then .badDescriptor
        else if s.keyValid = false then .noKey
        else if d.w3.toNat + 8 > d.w2.toNat ∨ d.w6.toNat + 8 > d.w5.toNat then .bufferTooShort
        else .ok]

/-- 60_exceptions.md R126: a command that ends with an error leaves every register and all of MEM as they were and
makes no access; the engine is IDLE and the response carries the code. -/
def Obligations.ErrorsLeaveStateAsBefore : Prop :=
  ∀ (s : State) (d : Descriptor), s.performs = some d → descriptorStatus s.keyValid d ≠ .ok →
    step s = .next { s with
      phase := .idle
      inputs := match s.phase with | .idle => s.inputs.tail | .busy _ => s.inputs
      responses := s.responses ++ [descriptorStatus s.keyValid d] }

/-- 60_exceptions.md R123: no step gives the response InvalidRounds, and LOADKEY stores every ROUNDS_IN. -/
def Obligations.InvalidRoundsNeverRaised : Prop :=
  (∀ s : State, ∃ t, step s = .next t ∧ ∀ x ∈ t.responses, x = .invalidRounds → x ∈ s.responses) ∧
  (∀ (o : KeyOperands) (s : State), o.key.base.toNat + o.key.len.toNat ≤ 2 ^ 32 → o.key.len.toNat = 16 →
    ∃ t, exec (.loadkey o) s = .next t ∧ t.rounds = o.roundsIn)

/-! ### The whole machine -/

/-- 20_memory.md R47, 70_reset_and_hazards.md R157: no access fails and no descriptor is without an outcome, so every
state has a next state. -/
def Obligations.EveryStateHasNextState : Prop :=
  ∀ s : State, ∃ t, step s = .next t

/-- 30_encoding.md R61, R57: a step that performs a descriptor gives exactly one response and leaves the engine IDLE;
while the engine is BUSY with it no offered command is taken off the interface; any other step gives none. -/
def Obligations.OneResponsePerCommand : Prop :=
  ∀ s : State, ∃ t, step s = .next t ∧ t.phase = .idle ∧
    match s.performs with
    | some d => t.responses = s.responses ++ [descriptorStatus s.keyValid d] ∧
        (s.phase = .idle → s.inputs = .command d :: t.inputs) ∧ (s.phase ≠ .idle → t.inputs = s.inputs)
    | none => t.responses = s.responses

/-- The invariant holds at reset (10_state.md R23; that MEM lists nothing then is log entry 2). -/
def Obligations.ResetMeetsInvariant : Prop :=
  State.reset.Inv

/-- From every state that meets the invariant a step gives a state that meets it: MEM keeps its canonical form, the
engine is IDLE between steps (10_state.md R21), every access was inside MEM (20_memory.md R33), InvalidRounds was
never given (60_exceptions.md R123). -/
def Obligations.StepKeepsInvariant : Prop :=
  ∀ s t : State, s.Inv → step s = .next t → t.Inv

/-- 10_state.md R10 to R13, R20: K, ROUNDS and KEY_VALID change only by a LOADKEY that succeeds, which sets KEY_VALID
and ROUNDS to its operand, or by reset, which clears KEY_VALID. -/
def Obligations.OnlyLoadkeyAndResetWriteKey : Prop :=
  ∀ s t : State, step s = .next t →
    (t.k = s.k ∧ t.rounds = s.rounds ∧ t.keyValid = s.keyValid) ∨
    (∃ d o, s.performs = some d ∧ decode d = .ok (.loadkey o) ∧ loadkeyStatus o = .ok ∧
      t.keyValid = true ∧ t.rounds = o.roundsIn) ∨
    ((s.abandons.isSome ∨ (s.phase = .idle ∧ ∃ rest, s.inputs = .reset :: rest)) ∧ t.keyValid = false)

/-- 10_state.md R20, 20_memory.md R40: a byte of MEM changes only by the host's own write to it, or inside the output
footprint of the block command that the step performs or abandons. -/
def Obligations.MemWrittenOnlyInFootprint : Prop :=
  ∀ (s t : State) (a : Nat), step s = .next t → t.mem.read a ≠ s.mem.read a →
    (∃ x v rest, s.phase = .idle ∧ s.inputs = .hostWrite x v :: rest ∧ x.toNat = a) ∨
    (∃ d b, (s.performs = some d ∨ s.abandons = some d) ∧ outputFootprint s.keyValid d = some b ∧
      b ≤ a ∧ a < b + 8)

/-- 10_state.md R12: while KEY_VALID = 0 no rule reads K or ROUNDS: two states that differ in them only step to states
that differ in them at most. It holds for every value that reset leaves in them (log entry 1). -/
def Obligations.UnloadedKeyIsUnobservable : Prop :=
  ∀ (s : State) (k : KeySchedule) (rounds : Word), s.keyValid = false →
    ∃ t t', step s = .next t ∧ step { s with k := k, rounds := rounds } = .next t' ∧
      (t' = t ∨ t' = { t with k := k, rounds := rounds })

/-- 10_state.md R14, R15, R16: no command reads a value of V0, V1, SUM or RC that an earlier one left: two states that
differ in them only step to states that differ in them at most. -/
def Obligations.WorkRegistersDoNotSurvive : Prop :=
  ∀ (s : State) (w : Work),
    ∃ t t', step s = .next t ∧ step { s with work := w } = .next t' ∧ (t' = t ∨ t' = { t with work := w })

/-- 70_reset_and_hazards.md R159, 10_state.md R21: the response and the 8 output bytes of a command are a function of
KEY_VALID, K, ROUNDS, the descriptor and the 8 input bytes, whatever else the two states hold. -/
def Obligations.DeterminismLaw : Prop :=
  ∀ (s s' : State) (d : Descriptor), s.performs = some d → s'.performs = some d → s.mem.wf = true →
    s'.mem.wf = true → s'.keyValid = s.keyValid → s'.k = s.k → s'.rounds = s.rounds →
    ∃ t t' x, step s = .next t ∧ step s' = .next t' ∧
      t.responses = s.responses ++ [x] ∧ t'.responses = s'.responses ++ [x] ∧
      ∀ b, outputFootprint s.keyValid d = some b →
        (∀ j, j < 8 → s'.mem.read (d.blockOperands.inAddr + j) = s.mem.read (d.blockOperands.inAddr + j)) →
        ∀ j, j < 8 → t'.mem.read (b + j) = t.mem.read (b + j)

/-! ### Reset, the host, waiting -/

/-- 10_state.md R23: right after reset KEY_VALID = 0 and the phase is IDLE. -/
def Obligations.ResetClearsKeyValid : Prop :=
  State.reset.keyValid = false ∧ State.reset.phase = .idle

/-- 70_reset_and_hazards.md R145, R146: reset while IDLE clears KEY_VALID, leaves MEM as it is, makes no access and
gives no response; and then every block command whose windows are well-formed ends with NoKey, whatever K and ROUNDS
hold. -/
def Obligations.ResetDiscardsKey : Prop :=
  ∀ (s : State) (rest : List Input), s.phase = .idle → s.inputs = .reset :: rest →
    ∃ t, step s = .next t ∧ t.keyValid = false ∧ t.phase = .idle ∧ t.mem = s.mem ∧ t.inputs = rest ∧
      t.responses = s.responses ∧ t.accesses = s.accesses ∧
      ∀ (o : BlockOperands), o.windowsWellFormed = true →
        ∀ i, i = Instr.encrypt o ∨ i = Instr.decrypt o →
          exec i t = .next { t with responses := t.responses ++ [.noKey] }

/-- 70_reset_and_hazards.md R147: reset while BUSY gives no response and leaves the engine as after any reset; it takes
the one input off, the reset or the abandoned command with it (log entry 12), and uses up one free value (log entry 3);
that no access is recorded, though some may have happened, is the model's choice (log entry 6); each
byte of the output footprint of a block command that would have succeeded is old or what the completed command would
have written, independently (byte j as bit j of a mask that nothing constrains, log entry 3), and no other byte of MEM
changes; any other command leaves MEM as it is. -/
def Obligations.ResetWhileBusyAbandons : Prop :=
  ∀ (s : State) (d : Descriptor), s.abandons = some d → s.mem.wf = true →
    ∃ t, step s = .next t ∧ t.keyValid = false ∧ t.phase = .idle ∧ t.responses = s.responses ∧
      t.accesses = s.accesses ∧ t.inputs = s.inputs.tail ∧ t.freeCount = s.freeCount + 1 ∧
      match outputFootprint s.keyValid d with
      | none => t.mem = s.mem
      | some b =>
        (∀ x, x < b ∨ b + 8 ≤ x → t.mem.read x = s.mem.read x) ∧
        ∃ u, performDescriptor d s = .next u ∧ ∀ j, j < 8 →
          t.mem.read (b + j) =
            if (Config.landed s.freeCount).getLsbD j then u.mem.read (b + j) else s.mem.read (b + j)

/-- 20_memory.md R44, 10_state.md R13: the host's write of a byte between commands is what a later read finds, changes
no other byte and no register, and is no access of the engine; a key already loaded does not change with its bytes. -/
def Obligations.HostWritesReachMemOnly : Prop :=
  ∀ (s : State) (x : Word) (v : Byte) (rest : List Input), s.mem.wf = true → s.phase = .idle →
    s.inputs = .hostWrite x v :: rest →
    ∃ t, step s = .next t ∧ t = { s with inputs := rest, mem := t.mem } ∧
      ∀ a, t.mem.read a = if a = x.toNat then v else s.mem.read a

/-- 10_state.md R17: between commands nothing happens. That the engine waits with an unchanged state when nothing is
offered is the model's choice (log entry 4). -/
def Obligations.IdleEngineWaits : Prop :=
  ∀ s : State, s.phase = .idle → s.inputs = [] → step s = .next s

/-! ### validate, outside the block -/

/-- 44_validate.md R115, R116: with `actual` at least as long as `expected`, true exactly when the first
`expected.length` positions match; with `actual` shorter, no result. -/
def Obligations.ValidateComparesPrefix : Prop :=
  ∀ expected actual : List Byte,
    if actual.length < expected.length then validate expected actual = .error .validateActualShort
    else validate expected actual = .ok (decide (∀ j, j < expected.length → expected[j]? = actual[j]?))

/-- 44_validate.md R117: after an ENCRYPT of a block in place and a DECRYPT in place, comparing the block before with
the block after is true. -/
def Obligations.ValidateConfirmsRoundTrip : Prop :=
  ∀ (o : BlockOperands) (s : State), s.mem.wf = true → blockStatus s.keyValid o = .ok → o.outAddr = o.inAddr →
    ∃ t u, exec (.encrypt o) s = .next t ∧ exec (.decrypt o) t = .next u ∧
      validate (s.mem.bytes o.inAddr 8) (u.mem.bytes o.outAddr 8) = .ok true
end

