-- ==== Sys2Proof/Laws/Operands.lean ====
section
/-! SUPPORT. The window checks in numbers, and what a passed check gives: addresses of MEM (20_memory.md R33). -/

namespace Sys2Proof

theorem Window.wellFormed_iff {w : Window} :
    w.wellFormed = true ↔ w.base.toNat + w.len.toNat ≤ Config.memSize := by
  exact decide_eq_true_iff

theorem Window.holdsBlock_iff {w : Window} {off : Word} :
    w.holdsBlock off = true ↔ off.toNat + 8 ≤ w.len.toNat := by
  exact decide_eq_true_iff

theorem KeyOperands.keyLenIsKeyBytes_iff {o : KeyOperands} :
    o.keyLenIsKeyBytes = true ↔ o.key.len.toNat = 16 := by
  exact decide_eq_true_iff

theorem BlockOperands.windowsWellFormed_iff {o : BlockOperands} :
    o.windowsWellFormed = true ↔ o.input.wellFormed = true ∧ o.output.wellFormed = true := by
  simp [BlockOperands.windowsWellFormed]

theorem BlockOperands.buffersHoldBlock_iff {o : BlockOperands} :
    o.buffersHoldBlock = true ↔ o.input.holdsBlock o.inOff = true ∧ o.output.holdsBlock o.outOff = true := by
  simp [BlockOperands.buffersHoldBlock]

namespace Machine

/-- When LOADKEY succeeds (40_loadkey.md R70). -/
theorem loadkeyStatus_eq_ok_iff {o : KeyOperands} :
    loadkeyStatus o = .ok ↔ o.windowsWellFormed = true ∧ o.keyLenIsKeyBytes = true := by
  unfold loadkeyStatus
  cases o.windowsWellFormed <;> cases o.keyLenIsKeyBytes <;> simp

/-- When a block command succeeds (42_encrypt.md R96). -/
theorem blockStatus_eq_ok_iff {keyValid : Bool} {o : BlockOperands} :
    blockStatus keyValid o = .ok ↔
      o.windowsWellFormed = true ∧ keyValid = true ∧ o.buffersHoldBlock = true := by
  unfold blockStatus
  cases o.windowsWellFormed <;> cases keyValid <;> cases o.buffersHoldBlock <;> simp

/-- The status of LOADKEY in numbers (40_loadkey.md R70). -/
theorem loadkeyStatus_eq (o : KeyOperands) :
    loadkeyStatus o =
      if o.key.base.toNat + o.key.len.toNat > 2 ^ 32 then .badDescriptor
      else if o.key.len.toNat ≠ 16 then .invalidKeyLength else .ok := by
  have c1 : (!o.windowsWellFormed) = true ↔ o.key.base.toNat + o.key.len.toNat > 2 ^ 32 := by
    rw [Bool.not_eq_true', ← Bool.not_eq_true, KeyOperands.windowsWellFormed, Window.wellFormed_iff]
    exact Nat.not_le
  have c2 : (!o.keyLenIsKeyBytes) = true ↔ o.key.len.toNat ≠ 16 := by
    rw [Bool.not_eq_true', ← Bool.not_eq_true, KeyOperands.keyLenIsKeyBytes_iff]
  unfold loadkeyStatus
  simp only [c1, c2]

/-- The status of a block command in numbers (42_encrypt.md R96). -/
theorem blockStatus_eq (keyValid : Bool) (o : BlockOperands) :
    blockStatus keyValid o =
      if o.input.base.toNat + o.input.len.toNat > 2 ^ 32 ∨ o.output.base.toNat + o.output.len.toNat > 2 ^ 32 then
        .badDescriptor
      else if keyValid = false then .noKey
      else if o.inOff.toNat + 8 > o.input.len.toNat ∨ o.outOff.toNat + 8 > o.output.len.toNat then .bufferTooShort
      else .ok := by
  have c1 : (!o.windowsWellFormed) = true ↔
      o.input.base.toNat + o.input.len.toNat > 2 ^ 32 ∨ o.output.base.toNat + o.output.len.toNat > 2 ^ 32 := by
    rw [Bool.not_eq_true', ← Bool.not_eq_true, BlockOperands.windowsWellFormed_iff, Window.wellFormed_iff,
      Window.wellFormed_iff, not_and_or]
    exact or_congr Nat.not_le Nat.not_le
  have c2 : (!o.buffersHoldBlock) = true ↔
      o.inOff.toNat + 8 > o.input.len.toNat ∨ o.outOff.toNat + 8 > o.output.len.toNat := by
    rw [Bool.not_eq_true', ← Bool.not_eq_true, BlockOperands.buffersHoldBlock_iff, Window.holdsBlock_iff,
      Window.holdsBlock_iff, not_and_or]
    exact or_congr Nat.not_le Nat.not_le
  unfold blockStatus
  simp only [c1, c2, Bool.not_eq_true']

/-- The 16 key bytes of a LOADKEY that succeeds are in MEM. -/
theorem keyAddr_inMem {o : KeyOperands} (h : loadkeyStatus o = .ok) : o.keyAddr + 16 ≤ Config.memSize := by
  rw [loadkeyStatus_eq_ok_iff, KeyOperands.windowsWellFormed, Window.wellFormed_iff,
    KeyOperands.keyLenIsKeyBytes_iff] at h
  unfold KeyOperands.keyAddr
  omega

/-- The 8 input bytes of a block command that succeeds are in MEM (R33). -/
theorem inAddr_inMem {keyValid : Bool} {o : BlockOperands} (h : blockStatus keyValid o = .ok) :
    o.inAddr + 8 ≤ Config.memSize := by
  rw [blockStatus_eq_ok_iff, BlockOperands.windowsWellFormed_iff, Window.wellFormed_iff,
    BlockOperands.buffersHoldBlock_iff, Window.holdsBlock_iff] at h
  unfold BlockOperands.inAddr
  omega

/-- The 8 output bytes of a block command that succeeds are in MEM (R33). -/
theorem outAddr_inMem {keyValid : Bool} {o : BlockOperands} (h : blockStatus keyValid o = .ok) :
    o.outAddr + 8 ≤ Config.memSize := by
  rw [blockStatus_eq_ok_iff, BlockOperands.windowsWellFormed_iff, Window.wellFormed_iff, Window.wellFormed_iff,
    BlockOperands.buffersHoldBlock_iff, Window.holdsBlock_iff, Window.holdsBlock_iff] at h
  unfold BlockOperands.outAddr
  omega

end Machine

end Sys2Proof
end

