-- ==== Sys2Proof/Laws/Memory.lean ====
section
/-! SUPPORT. The laws of MEM as data: read after write, the canonical form is kept, and equal reads of canonical
memories are equal data. -/

namespace Sys2Proof.Machine

@[simp] theorem Memory.read_nil (a : Nat) : Memory.read [] a = Memory.unlisted := rfl

theorem Memory.wfFrom_cons {lo b : Nat} {w : Byte} {m : Memory} :
    Memory.wfFrom lo ((b, w) :: m) = true ↔
      lo ≤ b ∧ b < Config.memSize ∧ w ≠ Memory.unlisted ∧ Memory.wfFrom (b + 1) m = true := by
  simp [Memory.wfFrom, and_assoc]

/-- A bound may be lowered. -/
theorem Memory.wfFrom_mono {lo lo' : Nat} (h : lo' ≤ lo) : ∀ {m : Memory},
    Memory.wfFrom lo m = true → Memory.wfFrom lo' m = true
  | [], _ => rfl
  | (b, w) :: m, hm => by
    rw [Memory.wfFrom_cons] at hm ⊢
    exact ⟨Nat.le_trans h hm.1, hm.2⟩

/-- Below its bound a canonical memory lists nothing. -/
theorem Memory.read_below {a : Nat} : ∀ {lo : Nat} {m : Memory},
    Memory.wfFrom lo m = true → a < lo → m.read a = Memory.unlisted
  | _, [], _, _ => rfl
  | lo, (b, w) :: m, hm, ha => by
    rw [Memory.wfFrom_cons] at hm
    have hne : a ≠ b := by omega
    simp only [Memory.read, hne, if_false]
    exact Memory.read_below hm.2.2.2 (by omega)

/-- A write leaves every other address alone, in every memory. -/
theorem Memory.read_write_of_ne {a b : Nat} (v : Byte) (h : b ≠ a) : ∀ m : Memory,
    (m.write a v).read b = m.read b
  | [] => by
    unfold Memory.write
    split <;> simp [Memory.read, h]
  | (c, w) :: m => by
    unfold Memory.write
    have ih := Memory.read_write_of_ne v h m
    repeat' split
    all_goals simp_all [Memory.read]

/-- A canonical memory reads what was last written. -/
theorem Memory.read_write_self_from {a : Nat} (v : Byte) : ∀ {lo : Nat} {m : Memory},
    Memory.wfFrom lo m = true → (m.write a v).read a = v
  | _, [], _ => by
    unfold Memory.write
    split <;> simp_all [Memory.read]
  | lo, (c, w) :: m, hm => by
    rw [Memory.wfFrom_cons] at hm
    unfold Memory.write
    by_cases hlt : a < c
    · have hne : a ≠ c := by omega
      have hb := Memory.read_below (a := a) hm.2.2.2 (by omega)
      by_cases hv : v = Memory.unlisted <;> simp [hlt, hv, Memory.read, hne, hb]
    · by_cases he : a = c
      · have hb := Memory.read_below (a := a) hm.2.2.2 (by omega)
        subst he
        by_cases hv : v = Memory.unlisted <;> simp [hv, Memory.read, hb]
      · have ih := Memory.read_write_self_from v hm.2.2.2 (a := a)
        simp [hlt, he, Memory.read, ih]

theorem Memory.read_write_self {m : Memory} (h : m.wf = true) (a : Nat) (v : Byte) : (m.write a v).read a = v :=
  Memory.read_write_self_from v h

/-- One byte after a write of one byte. -/
theorem Memory.read_write {m : Memory} (h : m.wf = true) (a b : Nat) (v : Byte) :
    (m.write a v).read b = if b = a then v else m.read b := by
  by_cases hb : b = a
  · subst hb; simp [Memory.read_write_self h]
  · simp [hb, Memory.read_write_of_ne v hb]

/-- A write keeps the canonical form. -/
theorem Memory.wfFrom_write {a : Nat} (v : Byte) (ha : a < Config.memSize) : ∀ {lo : Nat} {m : Memory},
    lo ≤ a → Memory.wfFrom lo m = true → Memory.wfFrom lo (m.write a v) = true
  | lo, [], hlo, _ => by
    unfold Memory.write
    split <;> simp_all [Memory.wfFrom]
  | lo, (c, w) :: m, hlo, hm => by
    have hm' := hm
    rw [Memory.wfFrom_cons] at hm
    unfold Memory.write
    split
    · split
      · exact hm'
      · rw [Memory.wfFrom_cons, Memory.wfFrom_cons]
        exact ⟨hlo, ha, ‹_›, by omega, hm.2.1, hm.2.2.1, hm.2.2.2⟩
    · split
      · subst c
        split
        · exact Memory.wfFrom_mono (by omega) hm.2.2.2
        · rw [Memory.wfFrom_cons]
          exact ⟨hlo, ha, ‹_›, hm.2.2.2⟩
      · rw [Memory.wfFrom_cons]
        exact ⟨hm.1, hm.2.1, hm.2.2.1, Memory.wfFrom_write v ha (by omega) hm.2.2.2⟩

theorem Memory.wf_write {m : Memory} (h : m.wf = true) {a : Nat} (ha : a < Config.memSize) (v : Byte) :
    (m.write a v).wf = true :=
  Memory.wfFrom_write v ha (Nat.zero_le a) h

/-- Canonical memories that read alike are the same data. -/
theorem Memory.eq_of_read_from : ∀ {lo : Nat} {m n : Memory}, Memory.wfFrom lo m = true → Memory.wfFrom lo n = true →
    (∀ a, m.read a = n.read a) → m = n
  | _, [], [], _, _, _ => rfl
  | _, [], (b, w) :: n, _, hn, h => by
    rw [Memory.wfFrom_cons] at hn
    exact absurd (by simpa [Memory.read] using (h b).symm) hn.2.2.1
  | _, (b, w) :: m, [], hm, _, h => by
    rw [Memory.wfFrom_cons] at hm
    exact absurd (by simpa [Memory.read] using h b) hm.2.2.1
  | _, (b, w) :: m, (c, x) :: n, hm, hn, h => by
    rw [Memory.wfFrom_cons] at hm hn
    have hbc : b = c := by
      rcases Nat.lt_trichotomy b c with hlt | he | hgt
      · have hx := h b
        have hne : b ≠ c := by omega
        rw [Memory.read, if_pos rfl, Memory.read, if_neg hne, Memory.read_below hn.2.2.2 (by omega)] at hx
        exact absurd hx hm.2.2.1
      · exact he
      · have hx := h c
        have hne : c ≠ b := by omega
        rw [Memory.read, if_neg hne, Memory.read, if_pos rfl, Memory.read_below hm.2.2.2 (by omega)] at hx
        exact absurd hx.symm hn.2.2.1
    subst hbc
    have hwx : w = x := by simpa [Memory.read] using h b
    subst hwx
    have hrest : m = n := Memory.eq_of_read_from hm.2.2.2 hn.2.2.2 (fun a => by
      by_cases ha : a = b
      · subst ha
        rw [Memory.read_below hm.2.2.2 (by omega), Memory.read_below hn.2.2.2 (by omega)]
      · simpa [Memory.read, ha] using h a)
    rw [hrest]

theorem Memory.eq_of_read {m n : Memory} (hm : m.wf = true) (hn : n.wf = true) (h : ∀ a, m.read a = n.read a) :
    m = n :=
  Memory.eq_of_read_from hm hn h

/-- Writing back what an address reads as changes nothing. -/
theorem Memory.write_read {m : Memory} (h : m.wf = true) {a : Nat} (ha : a < Config.memSize) :
    m.write a (m.read a) = m :=
  Memory.eq_of_read (Memory.wf_write h ha _) h (fun b => by
    rw [Memory.read_write h]
    split
    · subst b; rfl
    · rfl)

/-! ### Words -/

/-- Outside the four bytes of a word a word write changes nothing. -/
theorem Memory.read_write4_of_outside (m : Memory) {a b : Nat} (v : Word) (h : b < a ∨ a + 4 ≤ b) :
    (m.write4 a v).read b = m.read b := by
  unfold Memory.write4
  rw [Memory.read_write_of_ne _ (by omega), Memory.read_write_of_ne _ (by omega),
    Memory.read_write_of_ne _ (by omega), Memory.read_write_of_ne _ (by omega)]

theorem Memory.wf_write4 {m : Memory} (h : m.wf = true) {a : Nat} (ha : a + 4 ≤ Config.memSize) (v : Word) :
    (m.write4 a v).wf = true := by
  unfold Memory.write4
  exact Memory.wf_write (Memory.wf_write (Memory.wf_write (Memory.wf_write h (by omega) _) (by omega) _)
    (by omega) _) (by omega) _

/-- The four bytes of a word write. -/
theorem Memory.read_write4 {m : Memory} (h : m.wf = true) {a : Nat} (ha : a + 4 ≤ Config.memSize) (v : Word) (b : Nat) :
    (m.write4 a v).read b =
      if b = a then packByte0 v else if b = a + 1 then packByte1 v else if b = a + 2 then packByte2 v
      else if b = a + 3 then packByte3 v else m.read b := by
  have h1 := Memory.wf_write h (a := a) (by omega) (packByte0 v)
  have h2 := Memory.wf_write h1 (a := a + 1) (by omega) (packByte1 v)
  have h3 := Memory.wf_write h2 (a := a + 2) (by omega) (packByte2 v)
  unfold Memory.write4
  rw [Memory.read_write h3, Memory.read_write h2, Memory.read_write h1, Memory.read_write h]
  repeat' split
  all_goals first | rfl | omega

/-! ### Landing bytes -/

theorem landBytes_fold_outside {mask : BitVec 8} {b a : Nat} {done : Memory} : ∀ (l : List Nat) (m : Memory),
    (∀ j ∈ l, a ≠ b + j) →
    (l.foldl (fun m j => if mask.getLsbD j then m.write (b + j) (done.read (b + j)) else m) m).read a = m.read a
  | [], _, _ => rfl
  | j :: l, m, h => by
    rw [List.foldl_cons, landBytes_fold_outside l _ (fun i hi => h i (List.mem_cons_of_mem j hi))]
    split
    · exact Memory.read_write_of_ne _ (h j List.mem_cons_self) m
    · rfl

/-- Outside the footprint no byte lands. -/
theorem landBytes_outside (mask : BitVec 8) (b : Nat) (done m : Memory) {a : Nat} (h : a < b ∨ b + 8 ≤ a) :
    (landBytes mask b done m).read a = m.read a :=
  landBytes_fold_outside _ m (fun j hj => by
    have : j < 8 := by
      simp only [List.mem_cons, List.not_mem_nil, or_false] at hj
      omega
    omega)

/-- Landing bytes keeps the canonical form. -/
theorem landBytes_fold_wf {mask : BitVec 8} {b : Nat} {done : Memory} (hb : b + 8 ≤ Config.memSize) :
    ∀ (l : List Nat) (m : Memory), (∀ j ∈ l, j < 8) → m.wf = true →
    (l.foldl (fun m j => if mask.getLsbD j then m.write (b + j) (done.read (b + j)) else m) m).wf = true
  | [], _, _, h => h
  | j :: l, m, hl, h => by
    rw [List.foldl_cons]
    refine landBytes_fold_wf hb l _ (fun i hi => hl i (List.mem_cons_of_mem j hi)) ?_
    have := hl j List.mem_cons_self
    split
    · exact Memory.wf_write h (by omega) _
    · exact h

theorem landBytes_wf {mask : BitVec 8} {b : Nat} {done m : Memory} (hb : b + 8 ≤ Config.memSize) (h : m.wf = true) :
    (landBytes mask b done m).wf = true :=
  landBytes_fold_wf hb _ m (fun j hj => by
    simp only [List.mem_cons, List.not_mem_nil, or_false] at hj
    omega) h

end Sys2Proof.Machine
end

