-- ==== Sys2Proof/Laws/State.lean ====
section
/-! SUPPORT. One lemma per field per update of the state, so that no later proof unfolds a record update. -/

namespace Sys2Proof.Machine

section
variable (s : State)

@[simp] theorem State.respond_k (e : Status) : (s.respond e).k = s.k := rfl
@[simp] theorem State.respond_rounds (e : Status) : (s.respond e).rounds = s.rounds := rfl
@[simp] theorem State.respond_keyValid (e : Status) : (s.respond e).keyValid = s.keyValid := rfl
@[simp] theorem State.respond_work (e : Status) : (s.respond e).work = s.work := rfl
@[simp] theorem State.respond_phase (e : Status) : (s.respond e).phase = .idle := rfl
@[simp] theorem State.respond_mem (e : Status) : (s.respond e).mem = s.mem := rfl
@[simp] theorem State.respond_inputs (e : Status) : (s.respond e).inputs = s.inputs := rfl
@[simp] theorem State.respond_responses (e : Status) : (s.respond e).responses = s.responses ++ [e] := rfl
@[simp] theorem State.respond_accesses (e : Status) : (s.respond e).accesses = s.accesses := rfl
@[simp] theorem State.respond_freeCount (e : Status) : (s.respond e).freeCount = s.freeCount := rfl

@[simp] theorem State.raise_eq_respond (e : Status) : s.raise e = s.respond e := rfl

@[simp] theorem State.accept_k (d : Descriptor) : (s.accept d).k = s.k := rfl
@[simp] theorem State.accept_rounds (d : Descriptor) : (s.accept d).rounds = s.rounds := rfl
@[simp] theorem State.accept_keyValid (d : Descriptor) : (s.accept d).keyValid = s.keyValid := rfl
@[simp] theorem State.accept_work (d : Descriptor) : (s.accept d).work = s.work := rfl
@[simp] theorem State.accept_phase (d : Descriptor) : (s.accept d).phase = .busy d := rfl
@[simp] theorem State.accept_mem (d : Descriptor) : (s.accept d).mem = s.mem := rfl
@[simp] theorem State.accept_inputs (d : Descriptor) : (s.accept d).inputs = s.inputs := rfl
@[simp] theorem State.accept_responses (d : Descriptor) : (s.accept d).responses = s.responses := rfl
@[simp] theorem State.accept_accesses (d : Descriptor) : (s.accept d).accesses = s.accesses := rfl
@[simp] theorem State.accept_freeCount (d : Descriptor) : (s.accept d).freeCount = s.freeCount := rfl

@[simp] theorem State.resetEngine_k : s.resetEngine.k = State.reset.k := rfl
@[simp] theorem State.resetEngine_rounds : s.resetEngine.rounds = State.reset.rounds := rfl
@[simp] theorem State.resetEngine_keyValid : s.resetEngine.keyValid = false := rfl
@[simp] theorem State.resetEngine_work : s.resetEngine.work = State.reset.work := rfl
@[simp] theorem State.resetEngine_phase : s.resetEngine.phase = .idle := rfl
@[simp] theorem State.resetEngine_mem : s.resetEngine.mem = s.mem := rfl
@[simp] theorem State.resetEngine_inputs : s.resetEngine.inputs = s.inputs := rfl
@[simp] theorem State.resetEngine_responses : s.resetEngine.responses = s.responses := rfl
@[simp] theorem State.resetEngine_accesses : s.resetEngine.accesses = s.accesses := rfl
@[simp] theorem State.resetEngine_freeCount : s.resetEngine.freeCount = s.freeCount := rfl

@[simp] theorem State.hostWrite_k (a : Word) (v : Byte) : (s.hostWrite a v).k = s.k := rfl
@[simp] theorem State.hostWrite_rounds (a : Word) (v : Byte) : (s.hostWrite a v).rounds = s.rounds := rfl
@[simp] theorem State.hostWrite_keyValid (a : Word) (v : Byte) : (s.hostWrite a v).keyValid = s.keyValid := rfl
@[simp] theorem State.hostWrite_work (a : Word) (v : Byte) : (s.hostWrite a v).work = s.work := rfl
@[simp] theorem State.hostWrite_phase (a : Word) (v : Byte) : (s.hostWrite a v).phase = s.phase := rfl
@[simp] theorem State.hostWrite_mem (a : Word) (v : Byte) : (s.hostWrite a v).mem = s.mem.write a.toNat v := rfl
@[simp] theorem State.hostWrite_inputs (a : Word) (v : Byte) : (s.hostWrite a v).inputs = s.inputs := rfl
@[simp] theorem State.hostWrite_responses (a : Word) (v : Byte) : (s.hostWrite a v).responses = s.responses := rfl
@[simp] theorem State.hostWrite_accesses (a : Word) (v : Byte) : (s.hostWrite a v).accesses = s.accesses := rfl
@[simp] theorem State.hostWrite_freeCount (a : Word) (v : Byte) : (s.hostWrite a v).freeCount = s.freeCount := rfl

@[simp] theorem State.withFetchWord_phase (n w : Nat) : (s.withFetchWord n w).phase = .idle := rfl
@[simp] theorem State.withFetchWord_inputs (n w : Nat) :
    (s.withFetchWord n w).inputs = .command (Descriptor.ofBits (w % 2 ^ n)) :: s.inputs := rfl

end

section
variable (w : Work)

/-- These three are stated over a variable on purpose: with DELTA's literal in its place, comparing the record with
`w` field by field would unfold the literal. -/
theorem Work.setSum_v0 (x : Word) : ({ w with sum := x } : Work).v0 = w.v0 := rfl
theorem Work.setSum_v1 (x : Word) : ({ w with sum := x } : Work).v1 = w.v1 := rfl
theorem Work.setSum_rc (x : Word) : ({ w with sum := x } : Work).rc = w.rc := rfl

@[simp] theorem countIteration_v0 : (countIteration w).v0 = w.v0 := rfl
@[simp] theorem countIteration_v1 : (countIteration w).v1 = w.v1 := rfl
@[simp] theorem countIteration_sum : (countIteration w).sum = w.sum := rfl
@[simp] theorem countIteration_rc : (countIteration w).rc = add32 w.rc 1 := rfl
@[simp] theorem sumUp_v0 : (sumUp w).v0 = w.v0 := Work.setSum_v0 w _
@[simp] theorem sumUp_v1 : (sumUp w).v1 = w.v1 := Work.setSum_v1 w _
@[simp] theorem sumUp_sum : (sumUp w).sum = add32 w.sum Config.delta := rfl
@[simp] theorem sumUp_rc : (sumUp w).rc = w.rc := Work.setSum_rc w _
@[simp] theorem sumDown_v0 : (sumDown w).v0 = w.v0 := rfl
@[simp] theorem sumDown_v1 : (sumDown w).v1 = w.v1 := rfl
@[simp] theorem sumDown_sum : (sumDown w).sum = sub32 w.sum Config.delta := rfl
@[simp] theorem sumDown_rc : (sumDown w).rc = w.rc := rfl

variable (k : KeySchedule)

@[simp] theorem halfE0_v1 : (halfE0 k w).v1 = w.v1 := rfl
@[simp] theorem halfE0_sum : (halfE0 k w).sum = w.sum := rfl
@[simp] theorem halfE0_rc : (halfE0 k w).rc = w.rc := rfl
@[simp] theorem halfE1_v0 : (halfE1 k w).v0 = w.v0 := rfl
@[simp] theorem halfE1_sum : (halfE1 k w).sum = w.sum := rfl
@[simp] theorem halfE1_rc : (halfE1 k w).rc = w.rc := rfl
@[simp] theorem halfD0_v1 : (halfD0 k w).v1 = w.v1 := rfl
@[simp] theorem halfD0_sum : (halfD0 k w).sum = w.sum := rfl
@[simp] theorem halfD0_rc : (halfD0 k w).rc = w.rc := rfl
@[simp] theorem halfD1_v0 : (halfD1 k w).v0 = w.v0 := rfl
@[simp] theorem halfD1_sum : (halfD1 k w).sum = w.sum := rfl
@[simp] theorem halfD1_rc : (halfD1 k w).rc = w.rc := rfl

end

end Sys2Proof.Machine
end

