-- ==== Sys2Proof/Laws/Ops.lean ====
section
/-! SUPPORT. One lemma per access operation, saying all it does when its addresses are addresses of MEM, and the laws
of packing and unpacking (20_memory.md R36, R37). -/

namespace Sys2Proof.Machine

/-! ### Packing -/

theorem packByte0_unpack (b0 b1 b2 b3 : Byte) : packByte0 (unpack b0 b1 b2 b3) = b0 := by
  simp only [packByte0, unpack]
  ext i hi
  simp only [BitVec.getElem_extractLsb', BitVec.getLsbD_append]
  rw [if_neg (by omega), if_neg (by omega), if_neg (by omega), show 24 + i - 8 - 8 - 8 = i by omega]
  exact BitVec.getLsbD_eq_getElem hi

theorem packByte1_unpack (b0 b1 b2 b3 : Byte) : packByte1 (unpack b0 b1 b2 b3) = b1 := by
  simp only [packByte1, unpack]
  ext i hi
  simp only [BitVec.getElem_extractLsb', BitVec.getLsbD_append]
  rw [if_neg (by omega), if_neg (by omega), if_pos (by omega), show 16 + i - 8 - 8 = i by omega]
  exact BitVec.getLsbD_eq_getElem hi

theorem packByte2_unpack (b0 b1 b2 b3 : Byte) : packByte2 (unpack b0 b1 b2 b3) = b2 := by
  simp only [packByte2, unpack]
  ext i hi
  simp only [BitVec.getElem_extractLsb', BitVec.getLsbD_append]
  rw [if_neg (by omega), if_pos (by omega), show 8 + i - 8 = i by omega]
  exact BitVec.getLsbD_eq_getElem hi

theorem packByte3_unpack (b0 b1 b2 b3 : Byte) : packByte3 (unpack b0 b1 b2 b3) = b3 := by
  simp only [packByte3, unpack]
  ext i hi
  simp only [BitVec.getElem_extractLsb', BitVec.getLsbD_append]
  rw [if_pos (by omega), show 0 + i = i by omega]
  exact BitVec.getLsbD_eq_getElem hi

/-- Unpacking the packed bytes of a word gives the word back. -/
theorem unpack_packBytes (v : Word) : unpack (packByte0 v) (packByte1 v) (packByte2 v) (packByte3 v) = v := by
  simp only [packByte0, packByte1, packByte2, packByte3, unpack]
  ext i hi
  rw [← BitVec.getLsbD_eq_getElem]
  simp only [BitVec.getLsbD_append, BitVec.getLsbD_extractLsb']
  rw [← BitVec.getLsbD_eq_getElem]
  split
  · simp [*]
  · split
    · simp [show i - 8 < 8 by omega, show 8 + (i - 8) = i by omega]
    · split
      · simp [show i - 8 - 8 < 8 by omega, show 16 + (i - 8 - 8) = i by omega]
      · simp [show i - 8 - 8 - 8 < 8 by omega, show 24 + (i - 8 - 8 - 8) = i by omega]

/-! The same in numbers. -/

theorem append_toNat {n m : Nat} (x : BitVec n) (y : BitVec m) : (x ++ y).toNat = x.toNat * 2 ^ m + y.toNat := by
  rw [BitVec.toNat_append, ← Nat.shiftLeft_add_eq_or_of_lt y.isLt, Nat.shiftLeft_eq]

theorem unpack_toNat (b0 b1 b2 b3 : Byte) :
    (unpack b0 b1 b2 b3).toNat = b0.toNat * 2 ^ 24 + b1.toNat * 2 ^ 16 + b2.toNat * 2 ^ 8 + b3.toNat := by
  unfold unpack
  rw [append_toNat, append_toNat, append_toNat]
  omega

theorem packByte0_toNat (v : Word) : (packByte0 v).toNat = v.toNat / 2 ^ 24 := by
  simp only [packByte0, BitVec.extractLsb'_toNat, Nat.shiftRight_eq_div_pow]
  omega

theorem packByte1_toNat (v : Word) : (packByte1 v).toNat = v.toNat / 2 ^ 16 % 256 := by
  simp only [packByte1, BitVec.extractLsb'_toNat, Nat.shiftRight_eq_div_pow]

theorem packByte2_toNat (v : Word) : (packByte2 v).toNat = v.toNat / 2 ^ 8 % 256 := by
  simp only [packByte2, BitVec.extractLsb'_toNat, Nat.shiftRight_eq_div_pow]

theorem packByte3_toNat (v : Word) : (packByte3 v).toNat = v.toNat % 256 := by
  simp only [packByte3, BitVec.extractLsb'_toNat, Nat.shiftRight_zero]

/-- The word at an address after it was stored there. -/
theorem Memory.read4_write4 {m : Memory} (h : m.wf = true) {a : Nat} (ha : a + 4 ≤ Config.memSize) (v : Word) :
    (m.write4 a v).read4 a = v := by
  unfold Memory.read4
  simp only [Memory.read_write4 h ha]
  simpa using unpack_packBytes v

/-- A word read depends on four bytes only. -/
theorem Memory.read4_congr {m n : Memory} {a b : Nat} (h : ∀ j, j < 4 → m.read (a + j) = n.read (b + j)) :
    m.read4 a = n.read4 b := by
  unfold Memory.read4
  rw [show m.read a = n.read b from h 0 (by omega), h 1 (by omega), h 2 (by omega), h 3 (by omega)]

/-- A block stored at an address: its two words, and every byte outside it as before. -/
theorem Memory.read_writeBlock {m : Memory} (h : m.wf = true) {b : Nat} (hb : b + 8 ≤ Config.memSize) (v0 v1 : Word) :
    ((m.write4 b v0).write4 (b + 4) v1).read4 b = v0 ∧ ((m.write4 b v0).write4 (b + 4) v1).read4 (b + 4) = v1 ∧
      ∀ a, a < b ∨ b + 8 ≤ a → ((m.write4 b v0).write4 (b + 4) v1).read a = m.read a := by
  have h1 := Memory.wf_write4 h (a := b) (by omega) v0
  refine ⟨?_, Memory.read4_write4 h1 (by omega) v1, fun a ha => ?_⟩
  · rw [Memory.read4_congr (n := m.write4 b v0) (b := b)
      (fun j hj => Memory.read_write4_of_outside _ _ (by omega)), Memory.read4_write4 h (by omega)]
  · rw [Memory.read_write4_of_outside _ _ (by omega), Memory.read_write4_of_outside _ _ (by omega)]

/-! ### Accesses -/

theorem memRead_ok {a : Nat} (h : a < Config.memSize) (s : State) :
    memRead a s = .ok (s.mem.read a, { s with accesses := s.accesses ++ [.read a (s.mem.read a)] }) := by
  simp [memRead, h]

theorem memWrite_ok {a : Nat} (h : a < Config.memSize) (v : Byte) (s : State) :
    memWrite a v s = .ok { s with mem := s.mem.write a v, accesses := s.accesses ++ [.write a v] } := by
  simp [memWrite, h]

theorem memRead4_ok {a : Nat} (h : a + 4 ≤ Config.memSize) (s : State) :
    memRead4 a s = .ok (s.mem.read4 a, { s with accesses := s.accesses ++ reads4 s.mem a }) := by
  unfold memRead4
  simp [memRead_ok (show a < Config.memSize by omega), memRead_ok (show a + 1 < Config.memSize by omega),
    memRead_ok (show a + 2 < Config.memSize by omega), memRead_ok (show a + 3 < Config.memSize by omega),
    bind, Except.bind, Memory.read4, reads4]

theorem memWrite4_ok {a : Nat} (h : a + 4 ≤ Config.memSize) (v : Word) (s : State) :
    memWrite4 a v s = .ok { s with mem := s.mem.write4 a v, accesses := s.accesses ++ writes4 a v } := by
  unfold memWrite4
  simp [memWrite_ok (show a < Config.memSize by omega), memWrite_ok (show a + 1 < Config.memSize by omega),
    memWrite_ok (show a + 2 < Config.memSize by omega), memWrite_ok (show a + 3 < Config.memSize by omega),
    bind, Except.bind, Memory.write4, writes4]

theorem readBlock_ok {a : Nat} (h : a + 8 ≤ Config.memSize) (s : State) :
    readBlock a s = .ok ((s.mem.read4 a, s.mem.read4 (a + 4)),
      { s with accesses := s.accesses ++ (reads4 s.mem a ++ reads4 s.mem (a + 4)) }) := by
  unfold readBlock
  simp [memRead4_ok (show a + 4 ≤ Config.memSize by omega), memRead4_ok (show a + 4 + 4 ≤ Config.memSize by omega),
    bind, Except.bind]

theorem writeBlock_ok {a : Nat} (h : a + 8 ≤ Config.memSize) (v0 v1 : Word) (s : State) :
    writeBlock a v0 v1 s = .ok { s with
      mem := (s.mem.write4 a v0).write4 (a + 4) v1
      accesses := s.accesses ++ (writes4 a v0 ++ writes4 (a + 4) v1) } := by
  unfold writeBlock
  simp [memWrite4_ok (show a + 4 ≤ Config.memSize by omega), memWrite4_ok (show a + 4 + 4 ≤ Config.memSize by omega),
    bind, Except.bind]

theorem readKey_ok {a : Nat} (h : a + 16 ≤ Config.memSize) (s : State) :
    readKey a s = .ok
      ({ k0 := s.mem.read4 a, k1 := s.mem.read4 (a + 4), k2 := s.mem.read4 (a + 8), k3 := s.mem.read4 (a + 12) },
        { s with accesses := s.accesses ++
          (reads4 s.mem a ++ reads4 s.mem (a + 4) ++ reads4 s.mem (a + 8) ++ reads4 s.mem (a + 12)) }) := by
  unfold readKey
  simp [memRead4_ok (show a + 4 ≤ Config.memSize by omega), memRead4_ok (show a + 4 + 4 ≤ Config.memSize by omega),
    memRead4_ok (show a + 8 + 4 ≤ Config.memSize by omega), memRead4_ok (show a + 12 + 4 ≤ Config.memSize by omega),
    bind, Except.bind]

/-! ### The records of accesses -/

theorem addr_reads4 {m : Memory} {a : Nat} {x : Access} (h : x ∈ reads4 m a) : a ≤ x.addr ∧ x.addr < a + 4 := by
  simp only [reads4, List.mem_cons, List.not_mem_nil, or_false] at h
  rcases h with rfl | rfl | rfl | rfl <;> simp [Access.addr]

theorem addr_writes4 {a : Nat} {v : Word} {x : Access} (h : x ∈ writes4 a v) : a ≤ x.addr ∧ x.addr < a + 4 := by
  simp only [writes4, List.mem_cons, List.not_mem_nil, or_false] at h
  rcases h with rfl | rfl | rfl | rfl <;> simp [Access.addr]

end Sys2Proof.Machine
end

