-- ==== Sys2Proof/Laws/Commands.lean ====
section
/-! SUPPORT. What a command can do, said once: either its status is an error and nothing but the response happens, or
it is OK and the effect is the one written here. -/

namespace Sys2Proof.Machine

/-- What a LOADKEY that succeeds leaves (40_loadkey.md R70). -/
def loadkeyNext (o : KeyOperands) (s : State) : State :=
  { s with
    k := { k0 := s.mem.read4 o.keyAddr, k1 := s.mem.read4 (o.keyAddr + 4), k2 := s.mem.read4 (o.keyAddr + 8)
           k3 := s.mem.read4 (o.keyAddr + 12) }
    rounds := o.roundsIn
    keyValid := true
    phase := .idle
    responses := s.responses ++ [.ok]
    accesses := s.accesses ++ (reads4 s.mem o.keyAddr ++ reads4 s.mem (o.keyAddr + 4) ++
      reads4 s.mem (o.keyAddr + 8) ++ reads4 s.mem (o.keyAddr + 12)) }

/-- The working registers a block command ends with, computed from the bytes before the command. -/
def blockWork (work : KeySchedule → Word → Word → Word → Work) (o : BlockOperands) (s : State) : Work :=
  work s.k s.rounds (s.mem.read4 o.inAddr) (s.mem.read4 (o.inAddr + 4))

/-- What a block command that succeeds leaves (42_encrypt.md R95, 43_decrypt.md R105). -/
def blockNext (work : KeySchedule → Word → Word → Word → Work) (o : BlockOperands) (s : State) : State :=
  { s with
    work := blockWork work o s
    mem := (s.mem.write4 o.outAddr (blockWork work o s).v0).write4 (o.outAddr + 4) (blockWork work o s).v1
    phase := .idle
    responses := s.responses ++ [.ok]
    accesses := s.accesses ++ (reads4 s.mem o.inAddr ++ reads4 s.mem (o.inAddr + 4) ++
      (writes4 o.outAddr (blockWork work o s).v0 ++ writes4 (o.outAddr + 4) (blockWork work o s).v1)) }

theorem loadkeyEffect_ok {o : KeyOperands} (h : loadkeyStatus o = .ok) (s : State) :
    loadkeyEffect o s = .ok (loadkeyNext o s) := by
  unfold loadkeyEffect
  rw [readKey_ok (keyAddr_inMem h)]
  rfl

theorem blockEffect_ok (work : KeySchedule → Word → Word → Word → Work) {o : BlockOperands} {s : State}
    (h : blockStatus s.keyValid o = .ok) : blockEffect work o s = .ok (blockNext work o s) := by
  unfold blockEffect
  rw [readBlock_ok (inAddr_inMem h)]
  simp only [bind, Except.bind]
  rw [writeBlock_ok (outAddr_inMem h)]
  simp only [State.respond, blockNext, blockWork, List.append_assoc]

theorem execLoadkey_ok {o : KeyOperands} (h : loadkeyStatus o = .ok) (s : State) :
    execLoadkey o s = .next (loadkeyNext o s) := by
  simp only [execLoadkey, h, loadkeyEffect_ok h, toOutcome]

theorem execLoadkey_error {o : KeyOperands} (h : loadkeyStatus o ≠ .ok) (s : State) :
    execLoadkey o s = .next (s.respond (loadkeyStatus o)) := by
  unfold execLoadkey
  split
  · contradiction
  · rfl

theorem blockCommand_ok (work : KeySchedule → Word → Word → Word → Work) {o : BlockOperands} {s : State}
    (h : blockStatus s.keyValid o = .ok) : blockCommand work o s = .next (blockNext work o s) := by
  simp only [blockCommand, h, blockEffect_ok work h, toOutcome]

theorem blockCommand_error (work : KeySchedule → Word → Word → Word → Work) {o : BlockOperands} {s : State}
    (h : blockStatus s.keyValid o ≠ .ok) :
    blockCommand work o s = .next (s.respond (blockStatus s.keyValid o)) := by
  unfold blockCommand
  split
  · contradiction
  · rfl

/-- A block command keeps MEM in canonical form. -/
theorem blockNext_wf (work : KeySchedule → Word → Word → Word → Work) {o : BlockOperands} {s : State}
    (hm : s.mem.wf = true) (h : blockStatus s.keyValid o = .ok) : (blockNext work o s).mem.wf = true := by
  have hb := outAddr_inMem h
  exact Memory.wf_write4 (Memory.wf_write4 hm (by omega) _) (by omega) _

/-! The arms of `exec`, each when its checks pass and when they do not. -/

theorem exec_loadkey_ok {o : KeyOperands} (h : loadkeyStatus o = .ok) (s : State) :
    exec (.loadkey o) s = .next (loadkeyNext o s) := execLoadkey_ok h s

theorem exec_encrypt_ok {o : BlockOperands} {s : State} (h : blockStatus s.keyValid o = .ok) :
    exec (.encrypt o) s = .next (blockNext encryptWork o s) := blockCommand_ok encryptWork h

theorem exec_decrypt_ok {o : BlockOperands} {s : State} (h : blockStatus s.keyValid o = .ok) :
    exec (.decrypt o) s = .next (blockNext decryptWork o s) := blockCommand_ok decryptWork h

theorem exec_error {i : Instr} {s : State} (h : instrStatus s.keyValid i ≠ .ok) :
    exec i s = .next (s.respond (instrStatus s.keyValid i)) := by
  cases i with
  | loadkey o => exact execLoadkey_error h s
  | encrypt o => exact blockCommand_error encryptWork h
  | decrypt o => exact blockCommand_error decryptWork h

/-- The next state of a command, whichever it is. -/
def instrNext (i : Instr) (s : State) : State :=
  if instrStatus s.keyValid i = .ok then
    match i with
    | .loadkey o => loadkeyNext o s
    | .encrypt o => blockNext encryptWork o s
    | .decrypt o => blockNext decryptWork o s
  else s.respond (instrStatus s.keyValid i)

/-- Every command answers its next state. -/
theorem exec_eq_instrNext (i : Instr) (s : State) : exec i s = .next (instrNext i s) := by
  by_cases h : instrStatus s.keyValid i = .ok
  · cases i with
    | loadkey o => rw [exec_loadkey_ok h]; simp only [instrNext, if_pos h]
    | encrypt o => rw [exec_encrypt_ok h]; simp only [instrNext, if_pos h]
    | decrypt o => rw [exec_decrypt_ok h]; simp only [instrNext, if_pos h]
  · rw [exec_error h]
    simp only [instrNext, if_neg h]

/-- The next state of a captured descriptor. -/
def descriptorNext (d : Descriptor) (s : State) : State :=
  match decode d with
  | .ok i    => instrNext i s
  | .error _ => s.respond .badDescriptor

theorem performDescriptor_eq (d : Descriptor) (s : State) : performDescriptor d s = .next (descriptorNext d s) := by
  unfold performDescriptor descriptorNext
  cases decode d with
  | ok i => exact exec_eq_instrNext i s
  | error e => rfl

/-- A descriptor whose status is an error gives the response and nothing else (60_exceptions.md R126). -/
theorem descriptorNext_error {d : Descriptor} {s : State} (h : descriptorStatus s.keyValid d ≠ .ok) :
    descriptorNext d s = s.respond (descriptorStatus s.keyValid d) := by
  unfold descriptorNext descriptorStatus at *
  cases hd : decode d with
  | ok i =>
    rw [hd] at h
    simp only [instrNext, if_neg h]
  | error e => rfl

/-- A descriptor whose status is OK is a LOADKEY, an ENCRYPT or a DECRYPT, with that command's effect. -/
theorem descriptorNext_ok {d : Descriptor} {s : State} (h : descriptorStatus s.keyValid d = .ok) :
    (∃ o, decode d = .ok (.loadkey o) ∧ loadkeyStatus o = .ok ∧ descriptorNext d s = loadkeyNext o s) ∨
    (∃ o, decode d = .ok (.encrypt o) ∧ blockStatus s.keyValid o = .ok ∧
      descriptorNext d s = blockNext encryptWork o s) ∨
    (∃ o, decode d = .ok (.decrypt o) ∧ blockStatus s.keyValid o = .ok ∧
      descriptorNext d s = blockNext decryptWork o s) := by
  unfold descriptorStatus at h
  unfold descriptorNext
  cases hd : decode d with
  | error e => rw [hd] at h; exact absurd h (by simp)
  | ok i =>
    rw [hd] at h
    have h' : instrStatus s.keyValid i = .ok := h
    simp only [instrNext, if_pos h']
    cases i with
    | loadkey o => exact .inl ⟨o, rfl, h, rfl⟩
    | encrypt o => exact .inr (.inl ⟨o, rfl, h, rfl⟩)
    | decrypt o => exact .inr (.inr ⟨o, rfl, h, rfl⟩)

/-- Performing a descriptor keeps MEM in canonical form. -/
theorem descriptorNext_wf (d : Descriptor) {s : State} (h : s.mem.wf = true) : (descriptorNext d s).mem.wf = true := by
  by_cases hs : descriptorStatus s.keyValid d = .ok
  · rcases descriptorNext_ok hs with ⟨o, _, hh, e⟩ | ⟨o, _, hh, e⟩ | ⟨o, _, hh, e⟩ <;> rw [e]
    · exact h
    · exact blockNext_wf _ h hh
    · exact blockNext_wf _ h hh
  · rw [descriptorNext_error hs]
    exact h

/-- Performing a descriptor ends with its response and leaves the engine IDLE (30_encoding.md R61). -/
theorem descriptorNext_responds (d : Descriptor) (s : State) :
    (descriptorNext d s).responses = s.responses ++ [descriptorStatus s.keyValid d] ∧
      (descriptorNext d s).phase = .idle ∧ (descriptorNext d s).inputs = s.inputs := by
  by_cases h : descriptorStatus s.keyValid d = .ok
  · rcases descriptorNext_ok h with ⟨o, _, _, e⟩ | ⟨o, _, _, e⟩ | ⟨o, _, _, e⟩ <;> rw [e, h] <;>
      exact ⟨rfl, rfl, rfl⟩
  · rw [descriptorNext_error h]
    exact ⟨rfl, rfl, rfl⟩

end Sys2Proof.Machine
end

