-- ==== Sys2Proof/Laws/Datapath.lean ====
section
/-! SUPPORT. The loop of the datapath and the key multiplexer (41_datapath.md R88, R90), said once. -/

namespace Sys2Proof.Machine

@[simp] theorem repeatTimes_zero (body : Work → Work) (w : Work) : repeatTimes 0 body w = w := rfl

/-- The loop from its first iteration on. -/
theorem repeatTimes_succ (n : Nat) (body : Work → Work) (w : Work) :
    repeatTimes (n + 1) body w = repeatTimes n body (body w) := rfl

/-- The loop up to its last iteration. -/
theorem repeatTimes_succ_last (body : Work → Work) : ∀ (n : Nat) (w : Work),
    repeatTimes (n + 1) body w = body (repeatTimes n body w)
  | 0, _ => rfl
  | n + 1, w => by
    rw [repeatTimes_succ, repeatTimes_succ_last body n, repeatTimes_succ]

/-- The multiplexer reads the two low bits of its selector only. -/
theorem KeySchedule.word_congr (k : KeySchedule) {x y : Word} (h0 : x.getLsbD 0 = y.getLsbD 0)
    (h1 : x.getLsbD 1 = y.getLsbD 1) : k.word x = k.word y := by
  simp only [KeySchedule.word, h0, h1]

/-- Where an iteration of ENCRYPT leaves SUM and RC. -/
theorem encryptIteration_sum (k : KeySchedule) (w : Work) :
    (encryptIteration k w).sum = add32 w.sum Config.delta := by
  simp only [encryptIteration, countIteration_sum, halfE1_sum, sumUp_sum, halfE0_sum]

theorem encryptIteration_rc (k : KeySchedule) (w : Work) : (encryptIteration k w).rc = add32 w.rc 1 := by
  simp only [encryptIteration, countIteration_rc, halfE1_rc, sumUp_rc, halfE0_rc]

/-- Where an iteration of DECRYPT leaves SUM and RC. -/
theorem decryptIteration_sum (k : KeySchedule) (w : Work) :
    (decryptIteration k w).sum = sub32 w.sum Config.delta := by
  simp only [decryptIteration, countIteration_sum, halfD0_sum, sumDown_sum, halfD1_sum]

theorem decryptIteration_rc (k : KeySchedule) (w : Work) : (decryptIteration k w).rc = add32 w.rc 1 := by
  simp only [decryptIteration, countIteration_rc, halfD0_rc, sumDown_rc, halfD1_rc]

end Sys2Proof.Machine
end

