-- ==== Sys2Proof/Laws/Decode.lean ====
section
/-! SUPPORT. The decoder in numbers: W0 modulo 256 is the opcode, the rest of it must be 0 (30_encoding.md R51, R55). -/

namespace Sys2Proof

theorem opcodeField_toNat (w : Word) : (opcodeField w).toNat = w.toNat % 256 := by
  simp [opcodeField, BitVec.extractLsb'_toNat]

theorem reservedField_toNat (w : Word) : (reservedField w).toNat = w.toNat / 256 := by
  simp only [reservedField, BitVec.extractLsb'_toNat, Nat.shiftRight_eq_div_pow]
  omega

theorem opcodeField_eq_iff (w : Word) (n : BitVec 8) : opcodeField w = n ↔ w.toNat % 256 = n.toNat := by
  rw [← opcodeField_toNat]
  exact BitVec.toNat_inj.symm

theorem reservedField_eq_zero_iff (w : Word) : reservedField w = 0 ↔ w.toNat / 256 = 0 := by
  rw [← reservedField_toNat]
  exact (BitVec.toNat_inj (x := reservedField w) (y := 0)).symm

/-- The decoder, with W0 as a number. -/
theorem decode_eq (d : Descriptor) :
    decode d =
      if d.w0.toNat % 256 = 1 then
        if d.w0.toNat / 256 = 0 then .ok (.loadkey d.keyOperands) else .error .reservedBitsSet
      else if d.w0.toNat % 256 = 2 then
        if d.w0.toNat / 256 = 0 then .ok (.encrypt d.blockOperands) else .error .reservedBitsSet
      else if d.w0.toNat % 256 = 3 then
        if d.w0.toNat / 256 = 0 then .ok (.decrypt d.blockOperands) else .error .reservedBitsSet
      else .error .reservedOpcode := by
  unfold decode
  simp only [opcodeField_eq_iff, reservedField_eq_zero_iff, opcodeLoadkey, opcodeEncrypt, opcodeDecrypt]
  rfl

end Sys2Proof
end

