-- ==== Sys2Proof/Laws/PerInstr.lean ====
section
/-! SUPPORT. Statements for all instructions, made per constructor of Instr. -/

namespace Sys2Proof.Laws.EncodedOpcode

/-- The encoder writes W0 as the row of spec/opcode_table.json has it, RSV0 included (30_encoding.md R53). -/
def Statement (i : Instr) : Prop :=
  (encode i).w0 = match i with
    | .loadkey _ => 0x00000001#32
    | .encrypt _ => 0x00000002#32
    | .decrypt _ => 0x00000003#32

theorem loadkey (o : KeyOperands) : Statement (.loadkey o) := rfl
theorem encrypt (o : BlockOperands) : Statement (.encrypt o) := rfl
theorem decrypt (o : BlockOperands) : Statement (.decrypt o) := rfl

end Sys2Proof.Laws.EncodedOpcode
end

