-- ==== Sys2Proof/Laws/Step.lean ====
section
/-! SUPPORT. What a step can do, said once: the next state of every state, by its phase and its next input. -/

namespace Sys2Proof.Machine

/-- The next state of every state. -/
def stepNext (s : State) : State :=
  match s.phase, s.inputs with
  | .idle, [] => s
  | .idle, .command d :: rest => descriptorNext d ({ s with inputs := rest }.accept d)
  | .idle, .reset :: rest => { s with inputs := rest }.resetEngine
  | .idle, .resetDuring d :: rest => abandonCommand d ({ s with inputs := rest }.accept d)
  | .idle, .hostWrite a v :: rest => { s with inputs := rest }.hostWrite a v
  | .busy d, .reset :: rest => abandonCommand d { s with inputs := rest }
  | .busy d, _ => descriptorNext d s

/-- Every state has the next state `stepNext` says. -/
theorem step_eq (s : State) : step s = .next (stepNext s) := by
  unfold step advance stepNext
  simp only [performDescriptor_eq]
  cases s.phase with
  | idle =>
    cases s.inputs with
    | nil => rfl
    | cons x rest => cases x <;> rfl
  | busy d =>
    cases s.inputs with
    | nil => rfl
    | cons x rest => cases x <;> rfl

/-- The five things a step can be: it performs a descriptor, abandons one, takes a reset, lets the host write a byte,
or waits. -/
theorem stepNext_cases (s : State) :
    (∃ d rest ph, s.performs = some d ∧ s.abandons = none ∧
      stepNext s = descriptorNext d { s with inputs := rest, phase := ph }) ∨
    (∃ d rest ph, s.performs = none ∧ s.abandons = some d ∧
      stepNext s = abandonCommand d { s with inputs := rest, phase := ph }) ∨
    (∃ rest, s.phase = .idle ∧ s.inputs = .reset :: rest ∧ stepNext s = { s with inputs := rest }.resetEngine) ∨
    (∃ x v rest, s.phase = .idle ∧ s.inputs = .hostWrite x v :: rest ∧
      stepNext s = { s with inputs := rest }.hostWrite x v) ∨
    (s.phase = .idle ∧ s.inputs = [] ∧ stepNext s = s) := by
  rcases s with ⟨k, r, kv, w, ph, m, inp, resp, acc, fc⟩
  cases ph with
  | idle =>
    cases inp with
    | nil => exact .inr (.inr (.inr (.inr ⟨rfl, rfl, rfl⟩)))
    | cons x rest =>
      cases x with
      | command d => exact .inl ⟨d, rest, .busy d, rfl, rfl, rfl⟩
      | reset => exact .inr (.inr (.inl ⟨rest, rfl, rfl, rfl⟩))
      | resetDuring d => exact .inr (.inl ⟨d, rest, .busy d, rfl, rfl, rfl⟩)
      | hostWrite a v => exact .inr (.inr (.inr (.inl ⟨a, v, rest, rfl, rfl, rfl⟩)))
  | busy d =>
    cases inp with
    | nil => exact .inl ⟨d, _, .busy d, rfl, rfl, rfl⟩
    | cons x rest =>
      cases x with
      | command d' => exact .inl ⟨d, _, .busy d, rfl, rfl, rfl⟩
      | reset => exact .inr (.inl ⟨d, rest, .busy d, rfl, rfl, rfl⟩)
      | resetDuring d' => exact .inl ⟨d, _, .busy d, rfl, rfl, rfl⟩
      | hostWrite a v => exact .inl ⟨d, _, .busy d, rfl, rfl, rfl⟩

/-- A step that abandons a descriptor takes the one input off and abandons it (70_reset_and_hazards.md R147). -/
theorem step_abandons {s : State} {d : Descriptor} (h : s.abandons = some d) :
    ∃ ph, step s = .next (abandonCommand d { s with inputs := s.inputs.tail, phase := ph }) := by
  rcases s with ⟨k, r, kv, w, ph, m, inp, resp, acc, fc⟩
  cases ph with
  | idle =>
    cases inp with
    | nil => simp [State.abandons] at h
    | cons x rest =>
      cases x <;> simp [State.abandons] at h
      subst h
      exact ⟨_, rfl⟩
  | busy d' =>
    cases inp with
    | nil => simp [State.abandons] at h
    | cons x rest =>
      cases x <;> simp [State.abandons] at h
      subst h
      exact ⟨_, rfl⟩

/-- A step that performs a descriptor: from IDLE it takes it off the inputs, from BUSY it takes no input. -/
theorem step_performs {s : State} {d : Descriptor} (h : s.performs = some d) :
    ∃ rest ph, step s = .next (descriptorNext d { s with inputs := rest, phase := ph }) ∧
      (s.phase = .idle → s.inputs = .command d :: rest) ∧ (s.phase ≠ .idle → rest = s.inputs) := by
  rw [step_eq]
  unfold State.performs at h
  split at h
  · rename_i d' rest hp hi
    cases h
    refine ⟨rest, .busy d, ?_, fun _ => hi, fun h => absurd hp h⟩
    unfold stepNext
    rw [hp, hi]
    rfl
  · contradiction
  · rename_i d' hp hi
    cases h
    refine ⟨s.inputs, s.phase, ?_, fun h => by simp [h] at hp, fun _ => rfl⟩
    unfold stepNext
    rw [hp]
    rcases hx : s.inputs with _ | ⟨x, r⟩
    · simp [← hx, ← hp]
    · cases x <;> simp [← hx, ← hp]
      simp_all
  · contradiction

/-- What an abandoned command leaves in MEM (70_reset_and_hazards.md R147). -/
theorem abandonedMem_eq (d : Descriptor) (s : State) :
    abandonedMem d s =
      match outputFootprint s.keyValid d with
      | some b => landBytes (Config.landed s.freeCount) b (descriptorNext d s).mem s.mem
      | none => s.mem := by
  unfold abandonedMem
  rw [performDescriptor_eq]
  cases outputFootprint s.keyValid d <;> rfl

/-- An output footprint is one of a block command whose checks pass, and lies in MEM. -/
theorem outputFootprint_some {keyValid : Bool} {d : Descriptor} {b : Nat}
    (h : outputFootprint keyValid d = some b) :
    ∃ o, (decode d = .ok (.encrypt o) ∨ decode d = .ok (.decrypt o)) ∧ blockStatus keyValid o = .ok ∧
      b = o.outAddr ∧ b + 8 ≤ Config.memSize := by
  unfold outputFootprint at h
  split at h
  · contradiction
  · rename_i o hd
    split at h
    · cases h; exact ⟨o, .inl hd, ‹_›, rfl, outAddr_inMem ‹_›⟩
    · contradiction
  · rename_i o hd
    split at h
    · cases h; exact ⟨o, .inr hd, ‹_›, rfl, outAddr_inMem ‹_›⟩
    · contradiction
  · contradiction

/-- Abandoning a command keeps MEM in canonical form. -/
theorem abandonedMem_wf (d : Descriptor) {s : State} (h : s.mem.wf = true) : (abandonedMem d s).wf = true := by
  rw [abandonedMem_eq]
  split
  · rename_i b hb
    obtain ⟨o, _, _, _, hm⟩ := outputFootprint_some hb
    exact landBytes_wf hm h
  · exact h

/-- Every step keeps MEM in canonical form. -/
theorem stepNext_wf {s : State} (h : s.mem.wf = true) : (stepNext s).mem.wf = true := by
  rcases stepNext_cases s with ⟨d, rest, ph, _, _, e⟩ | ⟨d, rest, ph, _, _, e⟩ | ⟨rest, _, _, e⟩ |
    ⟨x, v, rest, _, _, e⟩ | ⟨_, _, e⟩ <;> rw [e]
  · exact descriptorNext_wf d h
  · exact abandonedMem_wf d h
  · exact h
  · exact Memory.wf_write h x.isLt v
  · exact h

/-- MEM at reset is in canonical form. -/
theorem reset_mem_wf : State.reset.mem.wf = true := rfl

end Sys2Proof.Machine
end

