-- ==== Sys2Proof/Tests/Slice0.lean ====
section
/-! SUPPORT. Small tests of the model. Every expected value is the spec's own: 95_test_vectors.md (the section is named
at each test), or the rule named. After them, for each statement with hypotheses, a state that meets them. -/

namespace Sys2Proof.Tests

open Sys2Proof.Machine

/-! ### Helpers -/

/-- The state after an outcome, if it is a next state. -/
def nextOf : Host.Outcome State Fault Refusal → Option State
  | .next s => some s
  | _ => none

/-- A memory with these bytes from an address on. -/
def place (m : Memory) (a : Nat) : List Byte → Memory
  | [] => m
  | b :: bs => place (m.write a b) (a + 1) bs

/-- Key KA of 95_test_vectors.md. -/
def keyA : KeySchedule := { k0 := 0x00010203#32, k1 := 0x04050607#32, k2 := 0x08090A0B#32, k3 := 0x0C0D0E0F#32 }

/-- Key KB of 95_test_vectors.md. -/
def keyB : KeySchedule := { k0 := 0x01234567#32, k1 := 0x12345678#32, k2 := 0x23456789#32, k3 := 0x3456789A#32 }

/-- Key KF of 95_test_vectors.md. -/
def keyF : KeySchedule :=
  { k0 := 0xFFFFFFFF#32, k1 := 0xFFFFFFFF#32, k2 := 0xFFFFFFFF#32, k3 := 0xFFFFFFFF#32 }

/-- The 16 bytes of KA. -/
def keyBytesA : List Byte := [0, 1, 2, 3, 4, 5, 6, 7, 8, 9, 10, 11, 12, 13, 14, 15]

/-- `41 42 43 44 45 46 47 48`. -/
def plain : List Byte := [0x41, 0x42, 0x43, 0x44, 0x45, 0x46, 0x47, 0x48]

/-- A state after a LOADKEY, with a memory. -/
def loaded (k : KeySchedule) (rounds : Word) (m : Memory) : State :=
  { State.reset with k := k, rounds := rounds, keyValid := true, mem := m }

/-- The state with one descriptor offered. -/
def offering (s : State) (d : Descriptor) : State := { s with inputs := [.command d] }

/-- The last response of the state after one step. -/
def responseOf (s : State) : Option Status := (nextOf (step s)).bind (·.responses.getLast?)

/-- Format B operands. -/
def ops (ib il io ob ol oo : Word) : BlockOperands :=
  { input := { base := ib, len := il }, inOff := io, output := { base := ob, len := ol }, outOff := oo }

/-! ### WellFormed refuses an ill-formed term of each check (20_memory.md R33) -/

theorem test_wellFormed_refuses_key_window : (Instr.loadkey ⟨⟨0xFFFFFFF1#32, 16#32⟩, 32#32⟩).wellFormed = false := by decide
theorem test_wellFormed_key_window_at_top : (Instr.loadkey ⟨⟨0xFFFFFFF0#32, 16#32⟩, 32#32⟩).wellFormed = true := by decide
theorem test_wellFormed_refuses_encrypt_input : (Instr.encrypt (ops 0xFFFFFFF9#32 8 0 0 8 0)).wellFormed = false := by decide
theorem test_wellFormed_refuses_encrypt_output : (Instr.encrypt (ops 0 8 0 2 0xFFFFFFFF#32 0)).wellFormed = false := by decide
theorem test_wellFormed_refuses_decrypt_input : (Instr.decrypt (ops 0xFFFFFFFF#32 8 0 0 8 0)).wellFormed = false := by decide
theorem test_wellFormed_refuses_decrypt_output : (Instr.decrypt (ops 0 8 0 0xFFFFFFF9#32 8 0)).wellFormed = false := by decide
theorem test_wellFormed_largest_window : (Instr.decrypt (ops 1 0xFFFFFFFF#32 0 0 8 0)).wellFormed = true := by decide

/-! ### Decoding: the descriptors of programs P1 and P2, as 224-bit numbers W6 ++ … ++ W0 -/

theorem test_decode_loadkey :
    decodeTableWord 224 0x00000000000000000000000000000020000000100000100000000001 =
      some (.loadkey ⟨⟨0x1000#32, 16#32⟩, 32#32⟩) := by decide

theorem test_decode_encrypt :
    decodeTableWord 224 0x00000008000000180000300000000004000000180000300000000002 =
      some (.encrypt (ops 0x3000#32 24 4 0x3000#32 24 8)) := by decide

theorem test_decode_decrypt :
    decodeTableWord 224 0x00000010000000180000300000000008000000180000300000000003 =
      some (.decrypt (ops 0x3000#32 24 8 0x3000#32 24 16)) := by decide

/-- The opcode table gives a row 32 bits; the operand words are then zeros. -/
theorem test_decode_short_word : decodeTableWord 32 0x00000002 = some (.encrypt (ops 0 0 0 0 0 0)) := by decide

/-- R55: the reserved opcodes next to the commands' and a set reserved bit. -/
theorem test_decode_refuses_reserved :
    decodeTableWord 32 0x00000000 = none ∧ decodeTableWord 32 0x00000004 = none ∧
    decodeTableWord 32 0x000000FF = none ∧ decodeTableWord 32 0x00000102 = none ∧
    decodeTableWord 32 0x80000001 = none := by decide

theorem test_encode_decrypt :
    encode (.decrypt (ops 0x3000#32 24 8 0x4000#32 25 16)) =
      ⟨0x00000003#32, 0x3000#32, 24#32, 8#32, 0x4000#32, 25#32, 16#32⟩ := by decide

/-! ### Packing and the datapath (sections 3.1 to 3.3, 3.8) -/

theorem test_unpack_big_endian : unpack 0xDE 0xAD 0xBE 0xEF = 0xDEADBEEF#32 := by decide

theorem test_pack_big_endian :
    Memory.write4 [] 0x10 0x9E3779B9#32 = [(0x10, 0x9E), (0x11, 0x37), (0x12, 0x79), (0x13, 0xB9)] := by decide

/-- The two misreadings of section 3.2 give 0x0000000E and 0x31809EAB here. -/
theorem test_mix : mix 0xFFFFFFFF#32 = 0xF800000E#32 ∧ mix 0x12345678#32 = 0x36091BAB#32 := by decide

/-- Rows 1, 3 and 27 of section 3.3. -/
theorem test_selectors :
    (selLo 0x9E3779B9#32, selHi 0x9E3779B9#32) = (1, 3) ∧ (selLo 0xDAA66D2B#32, selHi 0xDAA66D2B#32) = (3, 1) ∧
    (selLo 0xAFD9D683#32, selHi 0xAFD9D683#32) = (3, 2) := by decide

/-- Trace 1 of section 3.8, its last row. -/
theorem test_encrypt_trace :
    encryptWork keyA 2 0x41424344#32 0x45464748#32 =
      { v0 := 0xFC26AF53#32, v1 := 0xCD4278CF#32, sum := 0x3C6EF372#32, rc := 2 } := by decide

/-- Trace 2 of section 3.8, its last row. -/
theorem test_decrypt_trace :
    decryptWork keyA 2 0xFC26AF53#32 0xCD4278CF#32 =
      { v0 := 0x41424344#32, v1 := 0x45464748#32, sum := 0, rc := 2 } := by decide

/-- Section 2, the vector of key KA with plaintext 4142434445464748, 32 rounds. -/
theorem test_encrypt_known_answer :
    ((encryptWork keyA 32 0x41424344#32 0x45464748#32).v0, (encryptWork keyA 32 0x41424344#32 0x45464748#32).v1) =
      (0x497DF3D0#32, 0x72612CB5#32) := by decide

/-- Section 3.7, the decrypt constant: 16 rounds, where the literal 0xC6EF3720 would be wrong. -/
theorem test_decrypt_generic_sum :
    ((decryptWork keyA 16 0xDEA0B0B4#32 0x0966B066#32).v0, (decryptWork keyA 16 0xDEA0B0B4#32 0x0966B066#32).v1) =
      (0x41424344#32, 0x45464748#32) := by decide +kernel

/-- Trace 4 of section 3.8: bit 31 set everywhere, one round. -/
theorem test_encrypt_logical_shift :
    ((encryptWork keyF 1 0x80000000#32 0x80000000#32).v0, (encryptWork keyF 1 0x80000000#32 0x80000000#32).v1) =
      (0xFBFFFFFF#32, 0xAA1779B6#32) := by decide

/-! ### The commands, one step each -/

/-- 40_loadkey.md R70, the example: the key at 0x1000. -/
theorem test_loadkey :
    (nextOf (exec (.loadkey ⟨⟨0x1000#32, 16#32⟩, 32#32⟩) { State.reset with mem := place [] 0x1000 keyBytesA })).map
      (fun t => (t.k, t.rounds, t.keyValid, t.responses)) = some (keyA, 32#32, true, [.ok]) := by decide

/-- Section 3.4: the last 16 bytes of MEM are a key window. -/
theorem test_loadkey_top_of_memory :
    (nextOf (exec (.loadkey ⟨⟨0xFFFFFFF0#32, 16#32⟩, 1#32⟩)
      { State.reset with mem := place [] 0xFFFFFFF0 keyBytesA })).map (fun t => (t.k, t.rounds)) =
      some (keyA, 1#32) := by decide

/-- P2 step 2: footprints that overlap in 4 bytes. -/
theorem test_encrypt_overlapping :
    (nextOf (exec (.encrypt (ops 0x3000#32 24 4 0x3000#32 24 8)) (loaded keyB 2 (place [] 0x3000
      [0xA0, 0xA1, 0xA2, 0xA3, 0xA4, 0xA5, 0xA6, 0xA7, 0xA8, 0xA9, 0xAA, 0xAB, 0xAC, 0xAD, 0xAE, 0xAF, 0xB0])))).map
      (fun t => t.mem.bytes 0x3004 13) =
      some [0xA4, 0xA5, 0xA6, 0xA7, 0xDA, 0x72, 0xCA, 0xE7, 0xDD, 0x38, 0x1F, 0x81, 0xB0] := by decide

/-- P4 step 13: the last 8 bytes of MEM, in place, 32 rounds. -/
theorem test_encrypt_top_of_memory :
    (nextOf (exec (.encrypt (ops 0xFFFFFFF8#32 8 0 0xFFFFFFF8#32 8 0))
      (loaded keyA 32 (place [] 0xFFFFFFF8 [1, 2, 3, 4, 5, 6, 7, 8])))).map (fun t => t.mem.bytes 0xFFFFFFF8 8) =
      some [0x88, 0x87, 0x0E, 0x08, 0x28, 0x74, 0xD8, 0x53] := by decide

/-- P1 step 3: decrypt in place. -/
theorem test_decrypt_in_place :
    (nextOf (exec (.decrypt (ops 0x2000#32 8 0 0x2000#32 8 0))
      (loaded keyA 32 (place [] 0x2000 [0x49, 0x7D, 0xF3, 0xD0, 0x72, 0x61, 0x2C, 0xB5])))).map
      (fun t => t.mem.bytes 0x2000 8) = some plain := by decide +kernel

/-- P3 step 6: ROUNDS = 0 copies 8 bytes; the byte after them stays. -/
theorem test_decrypt_zero_rounds :
    (nextOf (exec (.decrypt (ops 0x5001#32 16 8 0x4000#32 16 0))
      (loaded keyF 0 (place (place [] 0x5009 [0xAB, 0xB3, 0xBB, 0x43, 0xF9, 0x34, 0xA3, 0x9D]) 0x4008 [0xFF])))).map
      (fun t => t.mem.bytes 0x4000 9) =
      some [0xAB, 0xB3, 0xBB, 0x43, 0xF9, 0x34, 0xA3, 0x9D, 0xFF] := by decide

/-! ### Statuses (section 3.9) -/

/-- Without a key: NoKey, which outranks BufferTooShort and is outranked by BadDescriptor. -/
theorem test_status_without_key :
    responseOf (offering State.reset ⟨2, 0x2000#32, 8, 0, 0x2100#32, 8, 0⟩) = some .noKey ∧
    responseOf (offering State.reset ⟨2, 0x2000#32, 7, 0, 0x2100#32, 8, 0⟩) = some .noKey ∧
    responseOf (offering State.reset ⟨2, 0xFFFFFFFF#32, 8, 0, 0x2100#32, 8, 0⟩) = some .badDescriptor := by decide

/-- With a key: the bounds of the two buffers, which never wrap. -/
theorem test_status_with_key :
    responseOf (offering (loaded keyA 1 []) ⟨2, 0x2000#32, 8, 0xFFFFFFF8#32, 0x2100#32, 8, 0⟩) = some .bufferTooShort ∧
    responseOf (offering (loaded keyA 1 []) ⟨3, 0x2000#32, 8, 0, 0x2100#32, 16, 9⟩) = some .bufferTooShort ∧
    responseOf (offering (loaded keyA 1 []) ⟨3, 0x2000#32, 8, 0, 0x2100#32, 16, 8⟩) = some .ok ∧
    responseOf (offering (loaded keyA 1 []) ⟨0x80000001#32, 0x1000#32, 16, 32, 0, 0, 0⟩) = some .badDescriptor := by decide

/-- LOADKEY: the length, outranked by the window. -/
theorem test_status_loadkey :
    responseOf (offering State.reset ⟨1, 0x1000#32, 15, 32, 0, 0, 0⟩) = some .invalidKeyLength ∧
    responseOf (offering State.reset ⟨1, 0xFFFFFFF8#32, 17, 32, 0, 0, 0⟩) = some .badDescriptor ∧
    responseOf (offering State.reset ⟨1, 0xFFFFFFF8#32, 8, 32, 0, 0, 0⟩) = some .invalidKeyLength ∧
    responseOf (offering State.reset ⟨1, 0x1000#32, 16, 0, 0xDEADBEEF#32, 1, 2⟩) = some .ok := by decide

/-! ### The step around the commands -/

/-- The word placed runs as the first command after reset. -/
theorem test_withFetchWord :
    responseOf (State.reset.withFetchWord 32 1) = some .invalidKeyLength ∧
    responseOf (State.reset.withFetchWord 32 2) = some .noKey ∧
    responseOf (State.reset.withFetchWord 32 3) = some .noKey := by decide

/-- 70_reset_and_hazards.md R146: reset discards the key, gives no response and keeps MEM. -/
theorem test_reset_discards_key :
    (nextOf (step { loaded keyA 32 (place [] 5 plain) with inputs := [.reset] })).map
      (fun t => (t.keyValid, t.responses, t.mem.bytes 5 8)) = some (false, [], plain) := by decide

/-- R147: a LOADKEY abandoned by reset loads no key and gives no response. -/
theorem test_reset_during_loadkey :
    (nextOf (step { State.reset with
      mem := place [] 0x1000 keyBytesA, inputs := [.resetDuring ⟨1, 0x1000#32, 16, 32, 0, 0, 0⟩] })).map
      (fun t => (t.keyValid, t.responses, t.phase, t.mem)) =
      some (false, [], .idle, place [] 0x1000 keyBytesA) := by decide

/-- 30_encoding.md R61: BUSY, the engine completes what it has and leaves the offered command where it is. -/
theorem test_busy_takes_no_command :
    (nextOf (step { State.reset with phase := .busy ⟨2, 0, 8, 0, 8, 8, 0⟩, inputs := [.command ⟨0, 0, 0, 0, 0, 0, 0⟩] })).map
      (fun t => (t.responses, t.phase, t.inputs)) =
      some ([.noKey], .idle, [.command ⟨0, 0, 0, 0, 0, 0, 0⟩]) := by decide

/-- Section 3.10. -/
theorem test_validate :
    (match validate [1, 2] [1, 2, 3] with | .ok b => b | .error _ => false) = true ∧
    (match validate [1, 2, 3] [1, 2] with | .ok _ => false | .error e => e == .validateActualShort) = true ∧
    (match validate [0x41, 0x48] [0x41, 0x49] with | .ok b => !b | .error _ => false) = true := by decide

/-- A written byte that reads as an unlisted one is not listed. -/
theorem test_memory_canonical :
    Memory.write (Memory.write [(3, 7), (9, 1)] 5 6) 3 0 = [(5, 6), (9, 1)] ∧ Memory.write [(3, 7)] 4 0 = [(3, 7)] := by
  decide

/-! ### Witnesses: states that meet the hypotheses of the statements -/

/-- A state with key KA, one round and the block at 0x2000. -/
def sample : State := loaded keyA 1 (place [] 0x2000 plain)

/-- In place at 0x2000. -/
def inPlace : BlockOperands := ops 0x2000#32 8 0 0x2000#32 8 0

/-- From 0x2000 to 0x2003, footprints overlapping. -/
def shifted : BlockOperands := ops 0x2000#32 8 0 0x2000#32 16 3

/-- A descriptor of ENCRYPT `inPlace`. -/
def encryptInPlace : Descriptor := ⟨2, 0x2000#32, 8, 0, 0x2000#32, 8, 0⟩

theorem witness_DescriptorsAreCommandsOrBad :
    (∃ s : State, s.phase = .idle ∧ s.inputs = .command ⟨0x00000104#32, 0, 0, 0, 0, 0, 0⟩ :: []) ∧
    ¬(((0x00000104#32).toNat % 256 = 1 ∨ (0x00000104#32).toNat % 256 = 2 ∨ (0x00000104#32).toNat % 256 = 3) ∧
      (0x00000104#32).toNat / 256 = 0) ∧
    ((0x00000003#32).toNat % 256 = 3 ∧ (0x00000003#32).toNat / 256 = 0) :=
  ⟨⟨offering State.reset ⟨0x00000104#32, 0, 0, 0, 0, 0, 0⟩, rfl, rfl⟩, by decide⟩

theorem witness_StepRunsDecodedCommand :
    (∃ (s : State) (rest : List Input) (i : Instr), s.phase = .idle ∧ s.inputs = .command encryptInPlace :: rest ∧ decode encryptInPlace = .ok i) ∧
    (∃ (s : State) (i : Instr), s.phase = .busy encryptInPlace ∧ (∀ rest, s.inputs ≠ .reset :: rest) ∧
      decode encryptInPlace = .ok i) ∧
    (∃ i, decodeTableWord 32 3 = some i) :=
  ⟨⟨offering sample encryptInPlace, [], .encrypt inPlace, rfl, rfl, rfl⟩,
    ⟨{ sample with phase := .busy encryptInPlace }, .encrypt inPlace, rfl, fun _ => by simp [sample, loaded, State.reset],
      rfl⟩,
    ⟨.decrypt (ops 0 0 0 0 0 0), by decide⟩⟩

/-- The three cases of LOADKEY where they meet: BASE + LEN = 2^32 + 1, 2^32 with another length, 2^32 with 16. -/
theorem witness_LoadkeyMeaning :
    loadkeyStatus ⟨⟨0xFFFFFFF1#32, 16⟩, 0⟩ = .badDescriptor ∧ loadkeyStatus ⟨⟨0xFFFFFFF1#32, 15⟩, 0⟩ = .invalidKeyLength ∧
    loadkeyStatus ⟨⟨0xFFFFFFF0#32, 16⟩, 0⟩ = .ok := by decide

/-- Each of the two errors, and both at once, where BadDescriptor is the one reported. -/
theorem witness_FailedLoadkeyKeepsKey :
    ((0xFFFFFFF1#32).toNat + (16#32).toNat > 2 ^ 32 ∧ (16#32).toNat = 16) ∧
    ((0xFFFFFFF0#32).toNat + (15#32).toNat ≤ 2 ^ 32 ∧ (15#32).toNat ≠ 16) ∧
    loadkeyStatus ⟨⟨0xFFFFFFF1#32, 17⟩, 0⟩ = .badDescriptor := by decide

/-- The four cases of a block command where they meet, and MEM in canonical form. -/
theorem witness_EncryptMeaning :
    sample.mem.wf = true ∧ blockStatus true (ops 0xFFFFFFF9#32 8 0 0 8 0) = .badDescriptor ∧
    blockStatus false (ops 0xFFFFFFF8#32 8 0 0 8 0) = .noKey ∧
    blockStatus true (ops 0xFFFFFFF8#32 8 1 0 8 0) = .bufferTooShort ∧
    blockStatus true (ops 0xFFFFFFF8#32 8 0 0 8 0) = .ok := by decide

theorem witness_DecryptMeaning :
    sample.mem.wf = true ∧ blockStatus true (ops 0 8 0 1 0xFFFFFFFF#32 0) = .ok ∧
    blockStatus true (ops 0 8 0 2 0xFFFFFFFF#32 0) = .badDescriptor ∧ blockStatus false (ops 0 7 0 0 8 0) = .noKey ∧
    blockStatus true (ops 0 8 0 0 16 9) = .bufferTooShort ∧ blockStatus true (ops 0 8 0 0 16 8) = .ok := by decide

theorem witness_WorkRegistersKeepLoopValues : blockStatus sample.keyValid shifted = .ok := by decide

theorem witness_AccessesInOrder :
    sample.mem.wf = true ∧ instrStatus sample.keyValid (.encrypt shifted) = .ok ∧
    instrStatus sample.keyValid (.decrypt inPlace) = .ok ∧
    instrStatus sample.keyValid (.loadkey ⟨⟨0x2000#32, 16⟩, 0⟩) = .ok ∧
    instrStatus false (.encrypt inPlace) ≠ .ok := by decide

/-- ROUNDS = 0 in a canonical memory, and each of the four cases where they meet. -/
theorem witness_RoundsZeroIsIdentity :
    (loaded keyA 0 (place [] 0x2000 plain)).mem.wf = true ∧ (loaded keyA 0 (place [] 0x2000 plain)).rounds = 0 ∧
    blockStatus true (ops 0 8 0 0xFFFFFFF9#32 8 0) = .badDescriptor ∧ blockStatus false shifted = .noKey ∧
    blockStatus true (ops 0 8 1 0 8 0) = .bufferTooShort ∧ blockStatus true shifted = .ok := by decide

/-- An ENCRYPT with overlapping footprints, and a DECRYPT elsewhere that reads what it wrote. -/
theorem witness_DecryptUndoesEncrypt :
    sample.mem.wf = true ∧ blockStatus sample.keyValid shifted = .ok ∧
    ((nextOf (exec (.encrypt shifted) sample)).map fun u =>
      u.mem.wf && decide (u.k = sample.k) && decide (u.rounds = sample.rounds) &&
        decide (blockStatus u.keyValid (ops 0x2003#32 8 0 0x3000#32 8 0) = .ok)) = some true ∧
    (ops 0x2003#32 8 0 0x3000#32 8 0).inAddr = shifted.outAddr := by decide

theorem witness_EncryptUndoesDecrypt :
    sample.mem.wf = true ∧ blockStatus sample.keyValid shifted = .ok ∧
    ((nextOf (exec (.decrypt shifted) sample)).map fun u =>
      u.mem.wf && decide (u.k = sample.k) && decide (u.rounds = sample.rounds) &&
        decide (blockStatus u.keyValid (ops 0x2003#32 8 0 0x3000#32 8 0) = .ok)) = some true ∧
    (ops 0x2003#32 8 0 0x3000#32 8 0).inAddr = shifted.outAddr := by decide

theorem witness_OneRoundIgnoresMiddleKeyWords : sample.rounds = 1 ∧ blockStatus sample.keyValid inPlace = .ok := by decide

/-- The same block at two places, in two states. -/
theorem witness_FrameLaw :
    sample.mem.wf = true ∧ (loaded keyA 1 (place [] 7 plain)).mem.wf = true ∧
    blockStatus sample.keyValid inPlace = .ok ∧ blockStatus true (ops 7 8 0 0x9000#32 9 1) = .ok ∧
    (∀ j, j < 8 → (loaded keyA 1 (place [] 7 plain)).mem.read (7 + j) = sample.mem.read (0x2000 + j)) ∧
    (inPlace.outAddr + 8 ≤ 0x2008) := by decide

theorem witness_SumSequence : (31 : Nat) < (32#32 : Word).toNat := by decide

theorem witness_UnpackIsBigEndian : (0xFFFFFFFC : Nat) + 4 ≤ 2 ^ 32 := by decide

theorem witness_PackInvertsUnpack : sample.mem.wf = true ∧ (0xFFFFFFFC : Nat) + 4 ≤ 2 ^ 32 := by decide

theorem witness_MemIsPlainStorage :
    sample.mem.wf = true ∧ (0xFFFFFFFF : Nat) < 2 ^ 32 ∧ Memory.wf (sample.mem.write 5 9) = true := by decide

theorem witness_WindowSumsNeverWrap :
    (Instr.encrypt (ops 0xFFFFFFF9#32 8 0 0 8 0)).wellFormed = false ∧
    blockStatus true (ops 0xFFFFFFF8#32 8 0 0 8 0) = .ok := by decide

/-- A step that performs a descriptor, IDLE and BUSY, and the boundaries where the status changes. -/
theorem witness_StatusPriority :
    (offering sample encryptInPlace).performs = some encryptInPlace ∧
    { sample with phase := .busy encryptInPlace }.performs = some encryptInPlace ∧
    descriptorStatus true ⟨0x100#32, 0, 0, 0, 0, 0, 0⟩ = .badDescriptor ∧
    descriptorStatus true ⟨4, 0, 8, 0, 0, 8, 0⟩ = .badDescriptor ∧
    descriptorStatus true ⟨1, 0xFFFFFFF0#32, 16, 0, 0, 0, 0⟩ = .ok ∧
    descriptorStatus true ⟨3, 0, 8, 0, 0, 8, 0⟩ = .ok ∧ descriptorStatus true ⟨3, 0, 8, 0, 0, 8, 1⟩ = .bufferTooShort := by
  decide

theorem witness_ErrorsLeaveStateAsBefore :
    (offering State.reset encryptInPlace).performs = some encryptInPlace ∧
    descriptorStatus State.reset.keyValid encryptInPlace ≠ .ok := by decide

theorem witness_InvalidRoundsNeverRaised :
    (0xFFFFFFF0#32).toNat + (16#32).toNat ≤ 2 ^ 32 ∧ (16#32).toNat = 16 := by decide

theorem witness_StepKeepsInvariant : (offering State.reset encryptInPlace).Inv ∧
    (nextOf (step (offering State.reset encryptInPlace))).isSome = true :=
  ⟨⟨rfl, rfl, by simp [offering, State.reset], by simp [offering, State.reset]⟩, by decide⟩

theorem witness_OnlyLoadkeyAndResetWriteKey : (nextOf (step (offering sample encryptInPlace))).isSome = true := by decide

/-- A byte that the step changes. -/
theorem witness_MemWrittenOnlyInFootprint :
    ((nextOf (step (offering sample encryptInPlace))).map fun t => decide (t.mem.read 0x2000 ≠ sample.mem.read 0x2000)) =
      some true := by decide

theorem witness_UnloadedKeyIsUnobservable : State.reset.keyValid = false := by decide

theorem witness_DeterminismLaw :
    let s := offering sample encryptInPlace
    let s' := offering (loaded keyA 1 (place (place [] 0x2000 plain) 1 [5])) encryptInPlace
    s.performs = some encryptInPlace ∧ s'.performs = some encryptInPlace ∧ s.mem.wf = true ∧ s'.mem.wf = true ∧
    s'.keyValid = s.keyValid ∧ s'.k = s.k ∧ s'.rounds = s.rounds ∧
    outputFootprint s.keyValid encryptInPlace = some 0x2000 ∧
    (∀ j, j < 8 → s'.mem.read (encryptInPlace.blockOperands.inAddr + j) =
      s.mem.read (encryptInPlace.blockOperands.inAddr + j)) := by decide

theorem witness_ResetDiscardsKey :
    { sample with inputs := [.reset] }.phase = .idle ∧ inPlace.windowsWellFormed = true := by decide

/-- Abandoned with an output footprint, from IDLE and from BUSY, and without one. -/
theorem witness_ResetWhileBusyAbandons :
    { sample with inputs := [.resetDuring encryptInPlace] }.abandons = some encryptInPlace ∧
    { sample with phase := .busy encryptInPlace, inputs := [.reset] }.abandons = some encryptInPlace ∧
    sample.mem.wf = true ∧ outputFootprint sample.keyValid encryptInPlace = some 0x2000 ∧
    outputFootprint false encryptInPlace = none := by decide

theorem witness_HostWritesReachMemOnly :
    let s := { sample with inputs := [.hostWrite 0xFFFFFFFF#32 7] }
    s.mem.wf = true ∧ s.phase = .idle ∧ s.inputs = .hostWrite 0xFFFFFFFF#32 7 :: [] := by decide

theorem witness_IdleEngineWaits : State.reset.phase = .idle ∧ State.reset.inputs = [] := by decide

theorem witness_ValidateComparesPrefix :
    ([1, 2] : List Byte).length < ([1, 2, 3] : List Byte).length ∧
    ¬([1, 2] : List Byte).length < ([1, 2] : List Byte).length := by decide

theorem witness_ValidateConfirmsRoundTrip :
    sample.mem.wf = true ∧ blockStatus sample.keyValid inPlace = .ok ∧ inPlace.outAddr = inPlace.inAddr := by decide

end Sys2Proof.Tests
end

/-! ## Proofs: the state family

The reset values, the invariant, who writes K, ROUNDS, KEY_VALID and MEM, and what no step reads (10_state.md). -/

section
/-! ### What a step and a descriptor answer -/

namespace Sys2Proof.Machine

theorem eq_stepNext {s t : State} (h : step s = .next t) : t = stepNext s := by
  rw [step_eq] at h
  exact (Host.Outcome.next.inj h).symm

/-- How two states with the same phase and the same inputs step: alike, so a relation holds of their next states if
each of the five things a step can be gives it. -/
theorem stepNext_relates {R : State → State → Prop} {s s' : State} (hphase : s'.phase = s.phase)
    (hinputs : s'.inputs = s.inputs)
    (perform : ∀ d rest ph, R (descriptorNext d { s with inputs := rest, phase := ph })
      (descriptorNext d { s' with inputs := rest, phase := ph }))
    (abandon : ∀ d rest ph, R (abandonCommand d { s with inputs := rest, phase := ph })
      (abandonCommand d { s' with inputs := rest, phase := ph }))
    (reset : ∀ rest, R { s with inputs := rest }.resetEngine { s' with inputs := rest }.resetEngine)
    (hostWrite : ∀ x v rest, R ({ s with inputs := rest }.hostWrite x v) ({ s' with inputs := rest }.hostWrite x v))
    (wait : R s s') : R (stepNext s) (stepNext s') := by
  rcases s with ⟨k, r, kv, w, ph, m, inp, resp, acc, fc⟩
  rcases s' with ⟨k', r', kv', w', ph', m', inp', resp', acc', fc'⟩
  cases hphase
  cases hinputs
  cases ph with
  | idle =>
    cases inp with
    | nil => exact wait
    | cons x rest =>
      cases x with
      | command d => exact perform d rest (.busy d)
      | reset => exact reset rest
      | resetDuring d => exact abandon d rest (.busy d)
      | hostWrite x v => exact hostWrite x v rest
  | busy d =>
    cases inp with
    | nil => exact perform d _ (.busy d)
    | cons x rest =>
      cases x with
      | reset => exact abandon d rest (.busy d)
      | command _ => exact perform d _ (.busy d)
      | resetDuring _ => exact perform d _ (.busy d)
      | hostWrite _ _ => exact perform d _ (.busy d)

theorem descriptorNext_of_loadkey {d : Descriptor} {o : KeyOperands} (hd : decode d = .ok (.loadkey o))
    (h : loadkeyStatus o = .ok) (s : State) : descriptorNext d s = loadkeyNext o s := by
  simp only [descriptorNext, hd, instrNext, instrStatus, h, if_true]

theorem descriptorNext_of_encrypt {d : Descriptor} {o : BlockOperands} {s : State}
    (hd : decode d = .ok (.encrypt o)) (h : blockStatus s.keyValid o = .ok) :
    descriptorNext d s = blockNext encryptWork o s := by
  simp only [descriptorNext, hd, instrNext, instrStatus, h, if_true]

theorem descriptorNext_of_decrypt {d : Descriptor} {o : BlockOperands} {s : State}
    (hd : decode d = .ok (.decrypt o)) (h : blockStatus s.keyValid o = .ok) :
    descriptorNext d s = blockNext decryptWork o s := by
  simp only [descriptorNext, hd, instrNext, instrStatus, h, if_true]

/-- `descriptorNext_ok` with the two block commands as one case, for what does not depend on the work between their
reads and writes. -/
theorem descriptorNext_ok_block {d : Descriptor} {s : State} (h : descriptorStatus s.keyValid d = .ok) :
    (∃ o, decode d = .ok (.loadkey o) ∧ loadkeyStatus o = .ok ∧ descriptorNext d s = loadkeyNext o s) ∨
    (∃ o work, blockStatus s.keyValid o = .ok ∧ outputFootprint s.keyValid d = some o.outAddr ∧
      descriptorNext d s = blockNext work o s) := by
  rcases descriptorNext_ok h with hload | ⟨o, hd, ho, e⟩ | ⟨o, hd, ho, e⟩
  · exact .inl hload
  · exact .inr ⟨o, encryptWork, ho, by simp only [outputFootprint, hd, if_pos ho], e⟩
  · exact .inr ⟨o, decryptWork, ho, by simp only [outputFootprint, hd, if_pos ho], e⟩

end Sys2Proof.Machine
end

section
/-! ### The invariant (O33, O34) -/

namespace Sys2Proof.Machine

theorem reads4_inMem {m : Memory} {a : Nat} (h : a + 4 ≤ Config.memSize) :
    ∀ x ∈ reads4 m a, x.addr < Config.memSize := fun _ hx =>
  Nat.lt_of_lt_of_le (addr_reads4 hx).2 h

theorem writes4_inMem {a : Nat} {v : Word} (h : a + 4 ≤ Config.memSize) :
    ∀ x ∈ writes4 a v, x.addr < Config.memSize := fun _ hx =>
  Nat.lt_of_lt_of_le (addr_writes4 hx).2 h

theorem loadkeyNext_accesses_inMem {o : KeyOperands} {s : State} (h : loadkeyStatus o = .ok)
    (hs : ∀ x ∈ s.accesses, x.addr < Config.memSize) :
    ∀ x ∈ (loadkeyNext o s).accesses, x.addr < Config.memSize := by
  have hkey := keyAddr_inMem h
  simp only [loadkeyNext, List.forall_mem_append]
  exact ⟨hs, ⟨⟨reads4_inMem (by omega), reads4_inMem (by omega)⟩, reads4_inMem (by omega)⟩, reads4_inMem (by omega)⟩

theorem blockNext_accesses_inMem (work : KeySchedule → Word → Word → Word → Work) {o : BlockOperands} {s : State}
    (h : blockStatus s.keyValid o = .ok) (hs : ∀ x ∈ s.accesses, x.addr < Config.memSize) :
    ∀ x ∈ (blockNext work o s).accesses, x.addr < Config.memSize := by
  have hin := inAddr_inMem h
  have hout := outAddr_inMem h
  simp only [blockNext, List.forall_mem_append]
  exact ⟨hs, ⟨reads4_inMem (by omega), reads4_inMem (by omega)⟩, writes4_inMem (by omega), writes4_inMem (by omega)⟩

/-- A command accesses addresses of MEM only (20_memory.md R33). -/
theorem descriptorNext_accesses_inMem (d : Descriptor) {s : State}
    (hs : ∀ x ∈ s.accesses, x.addr < Config.memSize) :
    ∀ x ∈ (descriptorNext d s).accesses, x.addr < Config.memSize := by
  by_cases h : descriptorStatus s.keyValid d = .ok
  · rcases descriptorNext_ok_block h with ⟨o, _, ho, e⟩ | ⟨o, work, ho, _, e⟩ <;> rw [e]
    · exact loadkeyNext_accesses_inMem ho hs
    · exact blockNext_accesses_inMem work ho hs
  · rw [descriptorNext_error h]
    exact hs

theorem loadkeyStatus_ne_invalidRounds (o : KeyOperands) : loadkeyStatus o ≠ .invalidRounds := by
  unfold loadkeyStatus
  repeat' split
  all_goals decide

theorem blockStatus_ne_invalidRounds (keyValid : Bool) (o : BlockOperands) :
    blockStatus keyValid o ≠ .invalidRounds := by
  unfold blockStatus
  repeat' split
  all_goals decide

/-- No command is answered InvalidRounds (60_exceptions.md R123). -/
theorem descriptorStatus_ne_invalidRounds (keyValid : Bool) (d : Descriptor) :
    descriptorStatus keyValid d ≠ .invalidRounds := by
  unfold descriptorStatus
  cases decode d with
  | error _ => exact nofun
  | ok i =>
    cases i with
    | loadkey o => exact loadkeyStatus_ne_invalidRounds o
    | encrypt o => exact blockStatus_ne_invalidRounds keyValid o
    | decrypt o => exact blockStatus_ne_invalidRounds keyValid o

/-- What performing a descriptor leaves is between steps: it needs the invariant's other parts only, not that the
engine was IDLE. -/
theorem descriptorNext_inv (d : Descriptor) {s : State} (hmem : s.mem.wf = true)
    (hacc : ∀ x ∈ s.accesses, x.addr < Config.memSize) (hresp : .invalidRounds ∉ s.responses) :
    (descriptorNext d s).Inv := by
  obtain ⟨hresponses, hphase, -⟩ := descriptorNext_responds d s
  refine ⟨descriptorNext_wf d hmem, hphase, descriptorNext_accesses_inMem d hacc, ?_⟩
  rw [hresponses, List.mem_append, List.mem_singleton, not_or]
  exact ⟨hresp, (descriptorStatus_ne_invalidRounds s.keyValid d).symm⟩

theorem stepNext_inv {s : State} (h : s.Inv) : (stepNext s).Inv := by
  obtain ⟨hmem, hidle, hacc, hresp⟩ := h
  rcases stepNext_cases s with ⟨d, rest, ph, _, _, e⟩ | ⟨d, rest, ph, _, _, e⟩ | ⟨rest, _, _, e⟩ |
    ⟨x, v, rest, _, _, e⟩ | ⟨_, _, e⟩ <;> rw [e]
  · exact descriptorNext_inv d hmem hacc hresp
  · exact ⟨abandonedMem_wf d hmem, rfl, hacc, hresp⟩
  · exact ⟨hmem, rfl, hacc, hresp⟩
  · exact ⟨Memory.wf_write hmem x.isLt v, hidle, hacc, hresp⟩
  · exact ⟨hmem, hidle, hacc, hresp⟩

/-- Settles O34: the invariant part by part, over the five things a step can be. -/
theorem stepKeepsInvariant : Obligations.StepKeepsInvariant := by
  intro s t hs hstep
  rw [eq_stepNext hstep]
  exact stepNext_inv hs

/-- Settles O33: reset memory, records and responses are empty. -/
theorem resetMeetsInvariant : Obligations.ResetMeetsInvariant :=
  ⟨reset_mem_wf, rfl, List.forall_mem_nil _, List.not_mem_nil⟩

end Sys2Proof.Machine
end

section
/-! ### Who writes K, ROUNDS and KEY_VALID (O35) -/

namespace Sys2Proof.Machine

/-- Performing a descriptor leaves the key registers alone, or it is a LOADKEY that succeeds. -/
theorem descriptorNext_key (d : Descriptor) (s : State) :
    ((descriptorNext d s).k = s.k ∧ (descriptorNext d s).rounds = s.rounds ∧
      (descriptorNext d s).keyValid = s.keyValid) ∨
    (∃ o, decode d = .ok (.loadkey o) ∧ loadkeyStatus o = .ok ∧
      (descriptorNext d s).keyValid = true ∧ (descriptorNext d s).rounds = o.roundsIn) := by
  by_cases h : descriptorStatus s.keyValid d = .ok
  · rcases descriptorNext_ok_block h with ⟨o, hd, ho, e⟩ | ⟨o, work, _, _, e⟩ <;> rw [e]
    · exact .inr ⟨o, hd, ho, rfl, rfl⟩
    · exact .inl ⟨rfl, rfl, rfl⟩
  · rw [descriptorNext_error h]
    exact .inl ⟨rfl, rfl, rfl⟩

/-- Settles O35, over the five things a step can be. -/
theorem onlyLoadkeyAndResetWriteKey : Obligations.OnlyLoadkeyAndResetWriteKey := by
  intro s t hstep
  rw [eq_stepNext hstep]
  rcases stepNext_cases s with ⟨d, rest, ph, hperf, _, e⟩ | ⟨d, rest, ph, _, hab, e⟩ | ⟨rest, hidle, hin, e⟩ |
    ⟨x, v, rest, _, _, e⟩ | ⟨_, _, e⟩ <;> rw [e]
  · rcases descriptorNext_key d { s with inputs := rest, phase := ph } with hsame | ⟨o, hd, ho, hkv, hr⟩
    · exact .inl hsame
    · exact .inr (.inl ⟨d, o, hperf, hd, ho, hkv, hr⟩)
  · exact .inr (.inr ⟨.inl (by rw [hab]; rfl), rfl⟩)
  · exact .inr (.inr ⟨.inr ⟨hidle, rest, hin⟩, rfl⟩)
  · exact .inl ⟨rfl, rfl, rfl⟩
  · exact .inl ⟨rfl, rfl, rfl⟩

end Sys2Proof.Machine
end

section
/-! ### Who writes MEM (O36) -/

namespace Sys2Proof.Machine

theorem blockNext_mem_outside (work : KeySchedule → Word → Word → Word → Work) (o : BlockOperands) (s : State)
    {a : Nat} (h : a < o.outAddr ∨ o.outAddr + 8 ≤ a) : (blockNext work o s).mem.read a = s.mem.read a := by
  simp only [blockNext]
  rw [Memory.read_write4_of_outside _ _ (by omega), Memory.read_write4_of_outside _ _ (by omega)]

/-- A byte that performing a descriptor changes is in its output footprint (20_memory.md R40). -/
theorem outputFootprint_of_descriptorNext_changes {d : Descriptor} {s : State} {a : Nat}
    (h : (descriptorNext d s).mem.read a ≠ s.mem.read a) :
    ∃ b, outputFootprint s.keyValid d = some b ∧ b ≤ a ∧ a < b + 8 := by
  by_cases hs : descriptorStatus s.keyValid d = .ok
  · rcases descriptorNext_ok_block hs with ⟨o, _, _, e⟩ | ⟨o, work, _, hf, e⟩ <;> rw [e] at h
    · exact absurd rfl h
    · refine ⟨o.outAddr, hf, ?_⟩
      by_contra hout
      exact h (blockNext_mem_outside work o s (by omega))
  · rw [descriptorNext_error hs] at h
    exact absurd rfl h

/-- A byte that abandoning a descriptor changes is in its output footprint (70_reset_and_hazards.md R147). -/
theorem outputFootprint_of_abandonedMem_changes {d : Descriptor} {s : State} {a : Nat}
    (h : (abandonedMem d s).read a ≠ s.mem.read a) :
    ∃ b, outputFootprint s.keyValid d = some b ∧ b ≤ a ∧ a < b + 8 := by
  rw [abandonedMem_eq] at h
  cases hf : outputFootprint s.keyValid d with
  | none =>
    rw [hf] at h
    exact absurd rfl h
  | some b =>
    rw [hf] at h
    refine ⟨b, rfl, ?_⟩
    by_contra hout
    exact h (landBytes_outside _ _ _ _ (by omega))

/-- Settles O36, over the five things a step can be. -/
theorem memWrittenOnlyInFootprint : Obligations.MemWrittenOnlyInFootprint := by
  intro s t a hstep hchange
  rw [eq_stepNext hstep] at hchange
  rcases stepNext_cases s with ⟨d, rest, ph, hperf, _, e⟩ | ⟨d, rest, ph, _, hab, e⟩ | ⟨rest, _, _, e⟩ |
    ⟨x, v, rest, hidle, hin, e⟩ | ⟨_, _, e⟩ <;> rw [e] at hchange
  · obtain ⟨b, hf, ha⟩ := outputFootprint_of_descriptorNext_changes hchange
    exact .inr ⟨d, b, .inl hperf, hf, ha⟩
  · obtain ⟨b, hf, ha⟩ := outputFootprint_of_abandonedMem_changes hchange
    exact .inr ⟨d, b, .inr hab, hf, ha⟩
  · exact absurd rfl hchange
  · refine .inl ⟨x, v, rest, hidle, hin, ?_⟩
    by_contra hne
    exact hchange (Memory.read_write_of_ne v (Ne.symm hne) s.mem)
  · exact absurd rfl hchange

end Sys2Proof.Machine
end

section
/-! ### What no step reads (O37, O38) -/

namespace Sys2Proof.Machine

theorem outputFootprint_of_noKey (d : Descriptor) : outputFootprint false d = none := by
  rw [Option.eq_none_iff_forall_not_mem]
  intro b hb
  obtain ⟨o, _, ho, _⟩ := outputFootprint_some hb
  exact absurd (blockStatus_eq_ok_iff.mp ho).2.1 (by decide)

/-- Without a key a command reads neither K nor ROUNDS: a LOADKEY that succeeds overwrites both, and everything else
ends with an error. -/
theorem descriptorNext_setKey (d : Descriptor) {s : State} (k : KeySchedule) (rounds : Word)
    (hkey : s.keyValid = false) :
    descriptorNext d { s with k := k, rounds := rounds } = descriptorNext d s ∨
    descriptorNext d { s with k := k, rounds := rounds } = { descriptorNext d s with k := k, rounds := rounds } := by
  by_cases h : descriptorStatus s.keyValid d = .ok
  · rcases descriptorNext_ok_block h with ⟨o, hd, ho, e⟩ | ⟨o, _, ho, _⟩
    · left
      rw [e, descriptorNext_of_loadkey hd ho]
      rfl
    · exact absurd ((blockStatus_eq_ok_iff.mp ho).2.1.symm.trans hkey) (by decide)
  · right
    rw [descriptorNext_error h, descriptorNext_error (s := { s with k := k, rounds := rounds }) h]
    rfl

theorem abandonCommand_setKey (d : Descriptor) {s : State} (k : KeySchedule) (rounds : Word)
    (hkey : s.keyValid = false) :
    abandonCommand d { s with k := k, rounds := rounds } = abandonCommand d s := by
  have hmem : abandonedMem d { s with k := k, rounds := rounds } = abandonedMem d s := by
    simp only [abandonedMem_eq, hkey, outputFootprint_of_noKey]
  simp only [abandonCommand, hmem]
  rfl

/-- Settles O37: the two states step alike, and only a LOADKEY and reset touch K and ROUNDS, by overwriting both. -/
theorem unloadedKeyIsUnobservable : Obligations.UnloadedKeyIsUnobservable := by
  intro s k rounds hkey
  refine ⟨_, _, step_eq s, step_eq _, ?_⟩
  refine stepNext_relates (R := fun t t' => t' = t ∨ t' = { t with k := k, rounds := rounds }) rfl rfl ?perform
    ?abandon ?reset ?hostWrite ?wait
  case perform =>
    exact fun d rest ph => descriptorNext_setKey d (s := { s with inputs := rest, phase := ph }) k rounds hkey
  case abandon =>
    exact fun d rest ph => .inl (abandonCommand_setKey d (s := { s with inputs := rest, phase := ph }) k rounds hkey)
  case reset => exact fun _ => .inl rfl
  case hostWrite => exact fun _ _ _ => .inr rfl
  case wait => exact .inr rfl

/-- No command reads the working registers: a block command that succeeds overwrites all four, and every other one
leaves them alone. -/
theorem descriptorNext_setWork (d : Descriptor) (s : State) (w : Work) :
    descriptorNext d { s with work := w } = descriptorNext d s ∨
    descriptorNext d { s with work := w } = { descriptorNext d s with work := w } := by
  by_cases h : descriptorStatus s.keyValid d = .ok
  · rcases descriptorNext_ok h with ⟨o, hd, ho, e⟩ | ⟨o, hd, ho, e⟩ | ⟨o, hd, ho, e⟩ <;> rw [e]
    · right
      rw [descriptorNext_of_loadkey hd ho]
      rfl
    · left
      rw [descriptorNext_of_encrypt hd (s := { s with work := w }) ho]
      rfl
    · left
      rw [descriptorNext_of_decrypt hd (s := { s with work := w }) ho]
      rfl
  · right
    rw [descriptorNext_error h, descriptorNext_error (s := { s with work := w }) h]
    rfl

theorem abandonCommand_setWork (d : Descriptor) (s : State) (w : Work) :
    abandonCommand d { s with work := w } = abandonCommand d s := by
  have hdone : (descriptorNext d { s with work := w }).mem = (descriptorNext d s).mem := by
    rcases descriptorNext_setWork d s w with e | e <;> rw [e]
  have hmem : abandonedMem d { s with work := w } = abandonedMem d s := by
    simp only [abandonedMem_eq, hdone]
  simp only [abandonCommand, hmem]
  rfl

/-- Settles O38: the two states step alike, and only a block command and reset touch the working registers, by
overwriting all four. -/
theorem workRegistersDoNotSurvive : Obligations.WorkRegistersDoNotSurvive := by
  intro s w
  refine ⟨_, _, step_eq s, step_eq _, ?_⟩
  refine stepNext_relates (R := fun t t' => t' = t ∨ t' = { t with work := w }) rfl rfl ?perform
    ?abandon ?reset ?hostWrite ?wait
  case perform => exact fun d rest ph => descriptorNext_setWork d { s with inputs := rest, phase := ph } w
  case abandon => exact fun d rest ph => .inl (abandonCommand_setWork d { s with inputs := rest, phase := ph } w)
  case reset => exact fun _ => .inl rfl
  case hostWrite => exact fun _ _ _ => .inr rfl
  case wait => exact .inr rfl

end Sys2Proof.Machine
end

section
/-! ### Reset values and waiting (O40, O44) -/

namespace Sys2Proof.Machine

/-- Settles O40: the two values `State.reset` takes from 10_state.md R23. -/
theorem resetClearsKeyValid : Obligations.ResetClearsKeyValid := ⟨rfl, rfl⟩

/-- Settles O44: `stepNext` of an IDLE state with no input is the state (log entry 4). -/
theorem idleEngineWaits : Obligations.IdleEngineWaits := by
  intro s hidle hinputs
  rw [step_eq]
  simp only [stepNext, hidle, hinputs]

end Sys2Proof.Machine
end

section
/-! ### The loops count their iterations (O22) -/

namespace Sys2Proof.Machine

theorem repeatTimes_eq_iterate (body : Work → Work) : ∀ (n : Nat) (w : Work), repeatTimes n body w = body^[n] w
  | 0, _ => rfl
  | n + 1, w => by rw [repeatTimes_succ, repeatTimes_eq_iterate body n, Function.iterate_succ_apply]

/-- A loop whose body advances RC by one ends with RC advanced by the number of iterations. -/
theorem repeatTimes_rc {body : Work → Work} (hbody : ∀ w, (body w).rc = add32 w.rc 1) (n : Nat) (w : Work) :
    (repeatTimes n body w).rc = w.rc + BitVec.ofNat 32 n := by
  induction n with
  | zero => simp
  | succ n ih =>
    rw [repeatTimes_succ_last, hbody, ih, add32, BitVec.ofNat_add, BitVec.add_assoc]
    rfl

theorem encryptWork_rc (k : KeySchedule) (rounds v0 v1 : Word) : (encryptWork k rounds v0 v1).rc = rounds := by
  simp [encryptWork, repeatTimes_rc (encryptIteration_rc k), Work.start]

theorem decryptWork_rc (k : KeySchedule) (rounds v0 v1 : Word) : (decryptWork k rounds v0 v1).rc = rounds := by
  simp [decryptWork, repeatTimes_rc (decryptIteration_rc k), Work.start]

/-- Settles O22: the loop is Mathlib's iterate, and RC advances by one in each iteration of either command. -/
theorem roundsIterationsCounted : Obligations.RoundsIterationsCounted := fun k rounds v0 v1 =>
  ⟨repeatTimes_eq_iterate _ _ _, repeatTimes_eq_iterate _ _ _, encryptWork_rc k rounds v0 v1,
    decryptWork_rc k rounds v0 v1⟩

end Sys2Proof.Machine
end

section
/-! ### The machine's datapath computes the reference cipher -/

namespace Sys2Proof.Machine

theorem Memory.read4_toNat (m : Memory) (a : Nat) : (m.read4 a).toNat = Reference.beWord m a :=
  unpack_toNat _ _ _ _

theorem add32_toNat (a b : Word) : (add32 a b).toNat = (a.toNat + b.toNat) % 2 ^ 32 := BitVec.toNat_add a b

/-- The reference writes a difference as the sum with the complement. -/
theorem sub32_toNat (a b : Word) : (sub32 a b).toNat = (a.toNat + (2 ^ 32 - b.toNat)) % 2 ^ 32 := by
  rw [sub32, BitVec.toNat_sub, Nat.add_comm]

theorem xor32_toNat (a b : Word) : (xor32 a b).toNat = a.toNat ^^^ b.toNat := BitVec.toNat_xor a b

theorem and32_three_toNat (s : Word) : (and32 s 3).toNat = s.toNat % 4 := by
  rw [and32, BitVec.toNat_and]
  exact Nat.and_two_pow_sub_one_eq_mod s.toNat 2

theorem shl32_four_toNat (v : Word) : (shl32 v 4).toNat = v.toNat * 16 % 2 ^ 32 := by
  rw [shl32, BitVec.toNat_shiftLeft, Nat.shiftLeft_eq]

theorem lsr32_toNat (v : Word) (n : Nat) : (lsr32 v n).toNat = v.toNat / 2 ^ n := by
  rw [lsr32, BitVec.toNat_ushiftRight, Nat.shiftRight_eq_div_pow]

theorem mix_toNat (v : Word) : (mix v).toNat = Reference.mix v.toNat := by
  simp only [mix, Reference.mix, add32_toNat, xor32_toNat, shl32_four_toNat, lsr32_toNat, Nat.reducePow]

theorem selLo_toNat (s : Word) : (selLo s).toNat = s.toNat % 4 := and32_three_toNat s

theorem selHi_toNat (s : Word) : (selHi s).toNat = s.toNat / 2048 % 4 := by
  simp only [selHi, and32_three_toNat, lsr32_toNat, Nat.reducePow]

/-- The multiplexer as a number: the two low bits of the selector (41_datapath.md R88). -/
theorem KeySchedule.word_toNat (k : KeySchedule) {sel : Word} (h : sel.toNat < 4) :
    (k.word sel).toNat = Reference.keyWord k sel.toNat := by
  obtain ⟨n, hn, rfl⟩ : ∃ n, n < 4 ∧ sel = BitVec.ofNat 32 n := ⟨sel.toNat, h, by simp⟩
  interval_cases n <;> rfl

theorem ktLo_toNat (k : KeySchedule) {s : Word} {i : Nat} (h : s.toNat = Reference.sumAt i) :
    (ktLo k s).toNat = Reference.termLo k i := by
  have hsel := selLo_toNat s
  rw [ktLo, add32_toNat, KeySchedule.word_toNat k (by omega), hsel, h, Reference.termLo]

theorem ktHi_toNat (k : KeySchedule) {s : Word} {i : Nat} (h : s.toNat = Reference.sumAt i) :
    (ktHi k s).toNat = Reference.termHi k i := by
  have hsel := selHi_toNat s
  rw [ktHi, add32_toNat, KeySchedule.word_toNat k (by omega), hsel, h, Reference.termHi]

theorem fLo_toNat (k : KeySchedule) (v : Word) {s : Word} {i : Nat} (h : s.toNat = Reference.sumAt i) :
    (fLo k v s).toNat = Reference.mix v.toNat ^^^ Reference.termLo k i := by
  rw [fLo, xor32_toNat, mix_toNat, ktLo_toNat k h]

theorem fHi_toNat (k : KeySchedule) (v : Word) {s : Word} {i : Nat} (h : s.toNat = Reference.sumAt i) :
    (fHi k v s).toNat = Reference.mix v.toNat ^^^ Reference.termHi k i := by
  rw [fHi, xor32_toNat, mix_toNat, ktHi_toNat k h]

/-! SUM along the loops (41_datapath.md R94). -/

theorem add32_delta_toNat {s : Word} {i : Nat} (h : s.toNat = Reference.sumAt i) :
    (add32 s Config.delta).toNat = Reference.sumAt (i + 1) := by
  have hdelta : Config.delta.toNat = 0x9E3779B9 := rfl
  rw [add32_toNat, h, hdelta, Reference.sumAt, Reference.sumAt]
  omega

theorem sub32_delta_toNat {s : Word} {i : Nat} (h : s.toNat = Reference.sumAt (i + 1)) :
    (sub32 s Config.delta).toNat = Reference.sumAt i := by
  have hdelta : Config.delta.toNat = 0x9E3779B9 := rfl
  rw [sub32_toNat, h, hdelta, Reference.sumAt, Reference.sumAt]
  omega

theorem mul32_delta_toNat (rounds : Word) : (mul32 Config.delta rounds).toNat = Reference.sumAt rounds.toNat :=
  BitVec.toNat_mul Config.delta rounds

/-! One iteration, and the loops. -/

/-- V0 and V1 as the pair of numbers the reference cipher works on. -/
def Work.block (w : Work) : Nat × Nat := (w.v0.toNat, w.v1.toNat)

theorem encryptIteration_block (k : KeySchedule) {w : Work} {i : Nat} (h : w.sum.toNat = Reference.sumAt i) :
    (encryptIteration k w).block = Reference.encryptRound k i w.block := by
  have hv0 : (halfE0 k w).v0.toNat =
      (w.v0.toNat + (Reference.mix w.v1.toNat ^^^ Reference.termLo k i)) % 2 ^ 32 := by
    rw [halfE0, add32_toNat, fLo_toNat k _ h]
  have hsum : (sumUp (halfE0 k w)).sum.toNat = Reference.sumAt (i + 1) := by
    rw [sumUp_sum, halfE0_sum, add32_delta_toNat h]
  simp only [encryptIteration, Work.block, Reference.encryptRound, countIteration_v0, countIteration_v1, halfE1_v0]
  rw [halfE1, add32_toNat, fHi_toNat k _ hsum, sumUp_v0, sumUp_v1, halfE0_v1, hv0]

theorem decryptIteration_block (k : KeySchedule) {w : Work} {i : Nat} (h : w.sum.toNat = Reference.sumAt (i + 1)) :
    (decryptIteration k w).block = Reference.decryptRound k i w.block := by
  have hv1 : (halfD1 k w).v1.toNat =
      (w.v1.toNat + (2 ^ 32 - (Reference.mix w.v0.toNat ^^^ Reference.termHi k (i + 1)))) % 2 ^ 32 := by
    rw [halfD1, sub32_toNat, fHi_toNat k _ h]
  have hsum : (sumDown (halfD1 k w)).sum.toNat = Reference.sumAt i := by
    rw [sumDown_sum, halfD1_sum, sub32_delta_toNat h]
  simp only [decryptIteration, Work.block, Reference.decryptRound, countIteration_v0, countIteration_v1, halfD0_v1]
  rw [halfD0, sub32_toNat, fLo_toNat k _ hsum, sumDown_v0, sumDown_v1, halfD1_v0, hv1]

/-- The loop of ENCRYPT after `n` iterations, by its last one: SUM is `mul32(DELTA, n)`, V0 and V1 are the reference's
block. -/
theorem repeatTimes_encryptIteration (k : KeySchedule) {w : Work} (h : w.sum.toNat = Reference.sumAt 0) (n : Nat) :
    (repeatTimes n (encryptIteration k) w).sum.toNat = Reference.sumAt n ∧
      (repeatTimes n (encryptIteration k) w).block = Reference.encrypt k n w.block := by
  induction n with
  | zero => exact ⟨h, rfl⟩
  | succ n ih =>
    obtain ⟨hsum, hblock⟩ := ih
    rw [repeatTimes_succ_last, encryptIteration_sum, add32_delta_toNat hsum, encryptIteration_block k hsum, hblock]
    exact ⟨rfl, rfl⟩

/-- The loop of DECRYPT from SUM = `mul32(DELTA, n)` on, by its first iteration: after `n` iterations SUM is 0, V0 and
V1 are the reference's block. -/
theorem repeatTimes_decryptIteration (k : KeySchedule) (n : Nat) : ∀ {w : Work}, w.sum.toNat = Reference.sumAt n →
    (repeatTimes n (decryptIteration k) w).sum.toNat = Reference.sumAt 0 ∧
      (repeatTimes n (decryptIteration k) w).block = Reference.decrypt k n w.block := by
  induction n with
  | zero => exact fun h => ⟨h, rfl⟩
  | succ n ih =>
    intro w h
    have hsum : (decryptIteration k w).sum.toNat = Reference.sumAt n := by
      rw [decryptIteration_sum, sub32_delta_toNat h]
    obtain ⟨hend, hblock⟩ := ih hsum
    rw [repeatTimes_succ, hblock, decryptIteration_block k h]
    exact ⟨hend, rfl⟩

/-- What the work of ENCRYPT ends with (42_encrypt.md R95). -/
theorem encryptWork_eq_reference (k : KeySchedule) (rounds v0 v1 : Word) :
    (encryptWork k rounds v0 v1).sum.toNat = Reference.sumAt rounds.toNat ∧
      (encryptWork k rounds v0 v1).block = Reference.encrypt k rounds.toNat (v0.toNat, v1.toNat) :=
  repeatTimes_encryptIteration k rfl rounds.toNat

/-- What the work of DECRYPT ends with (43_decrypt.md R105, R107). -/
theorem decryptWork_eq_reference (k : KeySchedule) (rounds v0 v1 : Word) :
    (decryptWork k rounds v0 v1).sum = 0 ∧
      (decryptWork k rounds v0 v1).block = Reference.decrypt k rounds.toNat (v0.toNat, v1.toNat) := by
  obtain ⟨hsum, hblock⟩ := repeatTimes_decryptIteration k rounds.toNat
    (w := Work.start v0 v1 (mul32 Config.delta rounds)) (mul32_delta_toNat rounds)
  exact ⟨BitVec.eq_of_toNat_eq hsum, hblock⟩

end Sys2Proof.Machine
end

section
/-! ### The working registers after a block command (O47) -/

namespace Sys2Proof.Machine

/-- Settles O47: the registers are the work of the command (log entry 5), which is the reference cipher's. -/
theorem workRegistersKeepLoopValues : Obligations.WorkRegistersKeepLoopValues := by
  intro o s h
  simp only [← Memory.read4_toNat]
  refine ⟨⟨_, exec_encrypt_ok h, ?_⟩, ⟨_, exec_decrypt_ok h, ?_⟩⟩
  · obtain ⟨hsum, hblock⟩ := encryptWork_eq_reference s.k s.rounds (s.mem.read4 o.inAddr) (s.mem.read4 (o.inAddr + 4))
    exact ⟨hblock, hsum, encryptWork_rc _ _ _ _⟩
  · obtain ⟨hsum, hblock⟩ := decryptWork_eq_reference s.k s.rounds (s.mem.read4 o.inAddr) (s.mem.read4 (o.inAddr + 4))
    exact ⟨hblock, hsum, decryptWork_rc _ _ _ _⟩

end Sys2Proof.Machine
end

/-! ## Proofs: the memory family

Bytes and words of MEM, the window checks, the record of a command's accesses, and the host's writes (20_memory.md). -/

section
/-! ### MEM as plain storage, and the host's writes to it (O25, O43) -/

namespace Sys2Proof.Machine

/-- Settles O25: the laws of MEM as data, together. -/
theorem memIsPlainStorage : Obligations.MemIsPlainStorage := fun _ hm =>
  ⟨fun a v ha => ⟨Memory.wf_write hm ha v, fun x => Memory.read_write hm a x v⟩,
    fun _ hn hread => Memory.eq_of_read hm hn hread⟩

/-- Settles O43: `stepNext` of such a state is the host's write, one byte of a canonical memory. -/
theorem hostWritesReachMemOnly : Obligations.HostWritesReachMemOnly := by
  intro s x v rest hm hidle hinputs
  have hnext : stepNext s = { s with inputs := rest }.hostWrite x v := by
    simp only [stepNext, hidle, hinputs]
  rw [step_eq, hnext]
  exact ⟨_, rfl, rfl, fun a => Memory.read_write hm x.toNat a v⟩

end Sys2Proof.Machine
end

section
/-! ### Words of MEM (O23, O24) -/

namespace Sys2Proof.Machine

/-! The four bytes of the word at an address are the bytes at it and above it (20_memory.md R36). -/

@[simp] theorem Memory.packByte0_read4 (m : Memory) (a : Nat) : packByte0 (m.read4 a) = m.read a :=
  packByte0_unpack _ _ _ _

@[simp] theorem Memory.packByte1_read4 (m : Memory) (a : Nat) : packByte1 (m.read4 a) = m.read (a + 1) :=
  packByte1_unpack _ _ _ _

@[simp] theorem Memory.packByte2_read4 (m : Memory) (a : Nat) : packByte2 (m.read4 a) = m.read (a + 2) :=
  packByte2_unpack _ _ _ _

@[simp] theorem Memory.packByte3_read4 (m : Memory) (a : Nat) : packByte3 (m.read4 a) = m.read (a + 3) :=
  packByte3_unpack _ _ _ _

/-- The bytes at an address as the base-256 digits of the word there, most significant first (R37). -/
theorem Memory.read_toNat_of_read4_eq {m : Memory} {a : Nat} {v : Word} (h : m.read4 a = v) :
    (m.read a).toNat = v.toNat / 2 ^ 24 ∧ (m.read (a + 1)).toNat = v.toNat / 2 ^ 16 % 256 ∧
      (m.read (a + 2)).toNat = v.toNat / 2 ^ 8 % 256 ∧ (m.read (a + 3)).toNat = v.toNat % 256 := by
  subst h
  simp only [← packByte0_toNat, ← packByte1_toNat, ← packByte2_toNat, ← packByte3_toNat, packByte0_read4,
    packByte1_read4, packByte2_read4, packByte3_read4, and_self]

/-- Writing back the word an address reads as changes nothing, byte by byte. -/
theorem Memory.write4_read4 {m : Memory} (h : m.wf = true) {a : Nat} (ha : a + 4 ≤ Config.memSize) :
    m.write4 a (m.read4 a) = m := by
  rw [Memory.write4, packByte0_read4, packByte1_read4, packByte2_read4, packByte3_read4,
    Memory.write_read h (by omega), Memory.write_read h (by omega), Memory.write_read h (by omega),
    Memory.write_read h (by omega)]

/-- Settles O23: `memRead4_ok`, with the word as a number. -/
theorem unpackIsBigEndian : Obligations.UnpackIsBigEndian := fun a s ha =>
  ⟨_, _, memRead4_ok ha s, Memory.read4_toNat s.mem a, rfl⟩

/-- Settles O24: everything follows from what the four bytes read as after the write, `Memory.read4_write4`, and from
`Memory.write4_read4`. -/
theorem packInvertsUnpack : Obligations.PackInvertsUnpack := by
  intro a v s hm ha
  have hread : (s.mem.write4 a v).read4 a = v := Memory.read4_write4 hm ha v
  refine ⟨⟨_, memWrite4_ok ha v s, ?stored⟩, ⟨_, _, _, memRead4_ok ha s, memWrite4_ok ha _ _, ?restored⟩⟩
  case stored =>
    obtain ⟨h0, h1, h2, h3⟩ := Memory.read_toNat_of_read4_eq hread
    refine ⟨h0, h1, h2, h3, fun x hx => Memory.read_write4_of_outside s.mem v hx, rfl, ?_⟩
    rw [memRead4_ok ha, hread]
    exact ⟨_, rfl⟩
  case restored => exact Memory.write4_read4 hm ha

end Sys2Proof.Machine
end

section
/-! ### Window and bounds checks (O26) -/

namespace Sys2Proof.Machine

/-- The window check of a block command as natural-number sums (20_memory.md R33). -/
theorem windowsWellFormed_iff_sums (o : BlockOperands) :
    o.windowsWellFormed = true ↔
      o.input.base.toNat + o.input.len.toNat ≤ 2 ^ 32 ∧ o.output.base.toNat + o.output.len.toNat ≤ 2 ^ 32 :=
  BlockOperands.windowsWellFormed_iff.trans (and_congr Window.wellFormed_iff Window.wellFormed_iff)

/-- The window check is the first one of every command (60_exceptions.md R127). -/
theorem instrStatus_of_not_wellFormed (keyValid : Bool) {i : Instr} (h : i.wellFormed = false) :
    instrStatus keyValid i = .badDescriptor := by
  cases i with
  | loadkey o =>
    have hw : o.windowsWellFormed = false := h
    simp [instrStatus, loadkeyStatus, hw]
  | encrypt o | decrypt o =>
    have hw : o.windowsWellFormed = false := h
    simp [instrStatus, blockStatus, hw]

theorem exec_of_not_wellFormed {i : Instr} (h : i.wellFormed = false) (s : State) :
    exec i s = .next (s.respond .badDescriptor) := by
  have hbad := instrStatus_of_not_wellFormed s.keyValid h
  rw [exec_error (by rw [hbad]; decide), hbad]

/-- Settles O26: the checks as sums, the first check of every command, and the footprints inside their windows. -/
theorem windowSumsNeverWrap : Obligations.WindowSumsNeverWrap := by
  refine ⟨fun i s => ⟨?sums, fun h => exec_of_not_wellFormed h s⟩, fun _ _ => Window.holdsBlock_iff, ?footprints⟩
  case sums =>
    cases i with
    | loadkey o => exact Window.wellFormed_iff
    | encrypt o | decrypt o => exact windowsWellFormed_iff_sums o
  case footprints =>
    intro o keyValid h j hj
    have hin : o.inAddr + 8 ≤ 2 ^ 32 := inAddr_inMem h
    have hout : o.outAddr + 8 ≤ 2 ^ 32 := outAddr_inMem h
    omega

end Sys2Proof.Machine
end

section
/-! ### The record of a command's accesses (O10) -/

namespace Sys2Proof.Machine

/-- Accesses of `n` bytes from an address on, ascending, each with what the byte reads as (20_memory.md R42). -/
def accessesFrom (access : Nat → Byte → Access) (m : Memory) (a n : Nat) : List Access :=
  (List.range n).map fun j => access (a + j) (m.read (a + j))

theorem accessesFrom_add (access : Nat → Byte → Access) (m : Memory) (a n k : Nat) :
    accessesFrom access m a (n + k) = accessesFrom access m a n ++ accessesFrom access m (a + n) k := by
  simp only [accessesFrom, List.range_add, List.map_append, List.map_map, Function.comp_def, Nat.add_assoc]

theorem reads4_eq_accessesFrom (m : Memory) (a : Nat) : reads4 m a = accessesFrom .read m a 4 := rfl

/-- A word write moves the four bytes that the memory with that word at the address reads as. -/
theorem writes4_eq_accessesFrom {m : Memory} {a : Nat} {v : Word} (h : m.read4 a = v) :
    writes4 a v = accessesFrom .write m a 4 := by
  subst h
  rw [writes4, Memory.packByte0_read4, Memory.packByte1_read4, Memory.packByte2_read4, Memory.packByte3_read4]
  rfl

theorem loadkeyNext_accesses (o : KeyOperands) (s : State) :
    (loadkeyNext o s).accesses = s.accesses ++ accessesFrom .read s.mem o.keyAddr 16 := by
  rw [accessesFrom_add _ _ _ 12 4, accessesFrom_add _ _ _ 8 4, accessesFrom_add _ _ _ 4 4]
  rfl

/-- The reads of a block command find the bytes before it; its writes move the bytes that stand there after it, each
output byte being written once. -/
theorem blockNext_accesses (work : KeySchedule → Word → Word → Word → Work) {o : BlockOperands} {s : State}
    (hm : s.mem.wf = true) (h : blockStatus s.keyValid o = .ok) :
    (blockNext work o s).accesses = s.accesses ++
      (accessesFrom .read s.mem o.inAddr 8 ++ accessesFrom .write (blockNext work o s).mem o.outAddr 8) := by
  obtain ⟨hv0, hv1, -⟩ := Memory.read_writeBlock hm (outAddr_inMem h) (blockWork work o s).v0 (blockWork work o s).v1
  rw [accessesFrom_add _ _ _ 4 4, accessesFrom_add _ _ _ 4 4]
  simp only [blockNext, reads4_eq_accessesFrom, writes4_eq_accessesFrom hv0, writes4_eq_accessesFrom hv1]

/-- Settles O10, by the status of the command and then by the command. -/
theorem accessesInOrder : Obligations.AccessesInOrder := by
  intro i s hm
  by_cases h : instrStatus s.keyValid i = .ok
  · simp only [if_pos h]
    cases i with
    | loadkey o => exact ⟨_, exec_loadkey_ok h s, loadkeyNext_accesses o s⟩
    | encrypt o => exact ⟨_, exec_encrypt_ok h, blockNext_accesses encryptWork hm h⟩
    | decrypt o => exact ⟨_, exec_decrypt_ok h, blockNext_accesses decryptWork hm h⟩
  · simp only [if_neg h, List.append_nil]
    exact ⟨_, exec_error h, rfl⟩

end Sys2Proof.Machine
end

section
/-! ### Every state has a next state (O31) -/

namespace Sys2Proof.Machine

/-- Settles O31: `stepNext` is that state. -/
theorem everyStateHasNextState : Obligations.EveryStateHasNextState := fun s => ⟨stepNext s, step_eq s⟩

end Sys2Proof.Machine
end

/-! ## Proofs: the encoding family

The decoder against the encoder, and what a step does with the descriptor it takes (30_encoding.md). -/

section
/-! ### W0 selects the command (O1) -/

namespace Sys2Proof

/-! The three rows of the opcode table (30_encoding.md R53). -/

theorem decode_of_loadkey {d : Descriptor} (h : d.w0 = 1#32) : decode d = .ok (.loadkey d.keyOperands) := by
  rw [decode_eq, h]
  rfl

theorem decode_of_encrypt {d : Descriptor} (h : d.w0 = 2#32) : decode d = .ok (.encrypt d.blockOperands) := by
  rw [decode_eq, h]
  rfl

theorem decode_of_decrypt {d : Descriptor} (h : d.w0 = 3#32) : decode d = .ok (.decrypt d.blockOperands) := by
  rw [decode_eq, h]
  rfl

/-- W0 of one of the three commands: an opcode that is not reserved, under a zero RSV0 (30_encoding.md R55). -/
theorem word0_isCommand_iff (w : Word) :
    (w.toNat % 256 = 1 ∨ w.toNat % 256 = 2 ∨ w.toNat % 256 = 3) ∧ w.toNat / 256 = 0 ↔
      w = 1#32 ∨ w = 2#32 ∨ w = 3#32 := by
  simp only [← BitVec.toNat_inj, BitVec.toNat_ofNat]
  omega

theorem decode_of_not_command {d : Descriptor} (h : ¬(d.w0 = 1#32 ∨ d.w0 = 2#32 ∨ d.w0 = 3#32)) :
    ∃ e, decode d = .error e := by
  rw [← word0_isCommand_iff] at h
  rw [decode_eq]
  by_cases hreserved : d.w0.toNat / 256 = 0
  · rw [if_neg (by omega), if_neg (by omega), if_neg (by omega)]
    exact ⟨_, rfl⟩
  · simp only [if_neg hreserved]
    split_ifs <;> exact ⟨_, rfl⟩

/-- All a descriptor that decodes to a command can be. -/
theorem decode_eq_ok_iff {d : Descriptor} {i : Instr} :
    decode d = .ok i ↔
      (d.w0 = 1#32 ∧ i = .loadkey d.keyOperands) ∨ (d.w0 = 2#32 ∧ i = .encrypt d.blockOperands) ∨
        (d.w0 = 3#32 ∧ i = .decrypt d.blockOperands) := by
  constructor
  · intro hd
    by_cases h : d.w0 = 1#32 ∨ d.w0 = 2#32 ∨ d.w0 = 3#32
    · rcases h with h | h | h
      · exact .inl ⟨h, Except.ok.inj (hd.symm.trans (decode_of_loadkey h))⟩
      · exact .inr (.inl ⟨h, Except.ok.inj (hd.symm.trans (decode_of_encrypt h))⟩)
      · exact .inr (.inr ⟨h, Except.ok.inj (hd.symm.trans (decode_of_decrypt h))⟩)
    · obtain ⟨e, he⟩ := decode_of_not_command h
      exact nomatch hd.symm.trans he
  · rintro (⟨h, rfl⟩ | ⟨h, rfl⟩ | ⟨h, rfl⟩)
    · exact decode_of_loadkey h
    · exact decode_of_encrypt h
    · exact decode_of_decrypt h

/-- Settles O1: the three rows, with the operand words in place. -/
theorem opcodeTableSelectsCommand : Obligations.OpcodeTableSelectsCommand := fun _ _ _ _ _ _ =>
  ⟨decode_of_loadkey rfl, decode_of_encrypt rfl, decode_of_decrypt rfl⟩

end Sys2Proof
end

section
/-! ### The encoder against the decoder (O3) -/

namespace Sys2Proof

theorem encode_loadkey_eq_iff {o : KeyOperands} {d : Descriptor} :
    encode (.loadkey o) = { d with w4 := 0, w5 := 0, w6 := 0 } ↔ d.w0 = 1#32 ∧ o = d.keyOperands := by
  constructor
  · intro h
    obtain ⟨h0, h1, h2, h3, -⟩ := Descriptor.mk.inj h
    refine ⟨h0.symm, ?_⟩
    rw [Descriptor.keyOperands, ← h1, ← h2, ← h3]
  · rintro ⟨h0, rfl⟩
    rw [h0]
    rfl

/-- Format B against a descriptor, for either block command's W0. -/
theorem descriptor_of_blockOperands_eq_iff {w : Word} {o : BlockOperands} {d : Descriptor} :
    ⟨w, o.input.base, o.input.len, o.inOff, o.output.base, o.output.len, o.outOff⟩ = d ↔
      d.w0 = w ∧ o = d.blockOperands := by
  constructor
  · rintro rfl
    exact ⟨rfl, rfl⟩
  · rintro ⟨rfl, rfl⟩
    rfl

theorem encode_encrypt_eq_iff {o : BlockOperands} {d : Descriptor} :
    encode (.encrypt o) = d ↔ d.w0 = 2#32 ∧ o = d.blockOperands :=
  descriptor_of_blockOperands_eq_iff

theorem encode_decrypt_eq_iff {o : BlockOperands} {d : Descriptor} :
    encode (.decrypt o) = d ↔ d.w0 = 3#32 ∧ o = d.blockOperands :=
  descriptor_of_blockOperands_eq_iff

/-- Settles O3: both sides say W0 and the operands, command by command. -/
theorem decodeReadsEveryField : Obligations.DecodeReadsEveryField := by
  intro d i
  rw [decode_eq_ok_iff]
  cases i with
  | loadkey o => exact Iff.trans (by simp) encode_loadkey_eq_iff.symm
  | encrypt o => exact Iff.trans (by simp) encode_encrypt_eq_iff.symm
  | decrypt o => exact Iff.trans (by simp) encode_decrypt_eq_iff.symm

theorem decode_encode (i : Instr) : decode (encode i) = .ok i := by
  rw [decodeReadsEveryField]
  cases i <;> rfl

end Sys2Proof
end

section
/-! ### The 224 bits of a descriptor (O4) -/

namespace Sys2Proof

/-! A word under the words above it: it is the low 32 bits, they are the rest. -/

theorem ofNat_word_add (w : Word) (n : Nat) : BitVec.ofNat 32 (w.toNat + 2 ^ 32 * n) = w := by
  apply BitVec.eq_of_toNat_eq
  rw [BitVec.toNat_ofNat, Nat.add_mul_mod_self_left, Nat.mod_eq_of_lt w.isLt]

theorem word_add_div (w : Word) (n k : Nat) : (w.toNat + 2 ^ 32 * n) / 2 ^ (k + 32) = n / 2 ^ k := by
  rw [Nat.pow_add, Nat.mul_comm (2 ^ k), ← Nat.div_div_eq_div_mul, Nat.add_mul_div_left _ _ (by decide),
    Nat.div_eq_of_lt w.isLt, Nat.zero_add]

theorem word_add_lt (w : Word) {n k : Nat} (h : n < 2 ^ k) : w.toNat + 2 ^ 32 * n < 2 ^ (32 + k) := by
  have hw := w.isLt
  rw [Nat.pow_add]
  omega

theorem Descriptor.toBits_lt (d : Descriptor) : d.toBits < 2 ^ 224 :=
  word_add_lt d.w0 <| word_add_lt d.w1 <| word_add_lt d.w2 <| word_add_lt d.w3 <| word_add_lt d.w4 <|
    word_add_lt d.w5 d.w6.isLt

/-- Each word of the descriptor is its 32 bits of the number, `word_add_div` dropping the words below it. -/
theorem Descriptor.ofBits_toBits (d : Descriptor) : Descriptor.ofBits d.toBits = d := by
  simp only [Descriptor.ofBits, Descriptor.toBits, word_add_div, ofNat_word_add, Nat.pow_zero, Nat.div_one,
    BitVec.ofNat_toNat, BitVec.setWidth_eq]

theorem decodeTableWord_eq_some_iff {n w : Nat} {i : Instr} :
    decodeTableWord n w = some i ↔ decode (Descriptor.ofBits (w % 2 ^ n)) = .ok i := by
  unfold decodeTableWord
  cases decode (Descriptor.ofBits (w % 2 ^ n)) <;> simp

/-- Settles O4: the bits of a descriptor are below 2^224 and name it, and decoding undoes encoding. -/
theorem tableBitsRoundTrip : Obligations.TableBitsRoundTrip := by
  intro i
  have hlt := (encode i).toBits_lt
  refine ⟨hlt, decodeTableWord_eq_some_iff.mpr ?_⟩
  rw [Nat.mod_eq_of_lt hlt, Descriptor.ofBits_toBits, decode_encode]

end Sys2Proof
end

section
/-! ### A step runs the descriptor it takes (O2, O5) -/

namespace Sys2Proof.Machine

theorem performDescriptor_of_command {d : Descriptor} {i : Instr} (h : decode d = .ok i) (s : State) :
    performDescriptor d s = exec i s := by
  rw [performDescriptor, h]

theorem performDescriptor_of_not_command {d : Descriptor} {e : DecodeError} (h : decode d = .error e) (s : State) :
    performDescriptor d s = .next (s.respond .badDescriptor) := by
  rw [performDescriptor, h]
  rfl

theorem step_of_idle_command {s : State} {d : Descriptor} {rest : List Input} (hidle : s.phase = .idle)
    (hinputs : s.inputs = .command d :: rest) :
    step s = performDescriptor d { s with inputs := rest, phase := .busy d } := by
  rw [step, advance, hidle, hinputs]
  rfl

theorem step_of_busy {s : State} {d : Descriptor} (hbusy : s.phase = .busy d)
    (hreset : ∀ rest, s.inputs ≠ .reset :: rest) : step s = performDescriptor d s := by
  rw [step, advance, hbusy]
  cases hinputs : s.inputs with
  | nil => rfl
  | cons x rest =>
    cases x with
    | reset => exact absurd hinputs (hreset rest)
    | command _ | resetDuring _ | hostWrite _ _ => rfl

/-- Settles O2: W0 is one of the three of the opcode table or the descriptor decodes to none, and then the step that
takes it off raises BadDescriptor and is IDLE again. -/
theorem descriptorsAreCommandsOrBad : Obligations.DescriptorsAreCommandsOrBad := by
  intro d
  split
  case isTrue h =>
    rcases (word0_isCommand_iff d.w0).mp h with h | h | h
    · exact ⟨_, decode_of_loadkey h⟩
    · exact ⟨_, decode_of_encrypt h⟩
    · exact ⟨_, decode_of_decrypt h⟩
  case isFalse h =>
    obtain ⟨e, he⟩ := decode_of_not_command (mt (word0_isCommand_iff d.w0).mpr h)
    refine ⟨⟨e, he⟩, fun s rest hidle hinputs => ?_⟩
    rw [step_of_idle_command hidle hinputs, performDescriptor_of_not_command he]
    simp only [State.respond, hidle]

/-- Settles O5: the step performs the descriptor, which is `exec` of what it decodes to; `withFetchWord` is the IDLE
case. -/
theorem stepRunsDecodedCommand : Obligations.StepRunsDecodedCommand := by
  refine ⟨?idle, ?busy, ?fetched⟩
  case idle =>
    intro s d rest i hidle hinputs hd
    rw [step_of_idle_command hidle hinputs, performDescriptor_of_command hd]
  case busy =>
    intro s d i hbusy hreset hd
    rw [step_of_busy hbusy hreset, performDescriptor_of_command hd]
  case fetched =>
    intro s n w i hw
    rw [step_of_idle_command (s.withFetchWord_phase n w) (s.withFetchWord_inputs n w),
      performDescriptor_of_command (decodeTableWord_eq_some_iff.mp hw)]
    rfl

end Sys2Proof.Machine
end

section
/-! ### Responses (O27, O32) -/

namespace Sys2Proof.Machine

/-- Settles O27: the six codes of 30_encoding.md R57. -/
theorem statusCodeNumbers : Obligations.StatusCodeNumbers := ⟨rfl, rfl, rfl, rfl, rfl, rfl⟩

/-- A step that performs no descriptor gives no response, and the engine is IDLE after it. -/
theorem stepNext_of_performs_none {s : State} (h : s.performs = none) :
    (stepNext s).phase = .idle ∧ (stepNext s).responses = s.responses := by
  rcases stepNext_cases s with ⟨d, rest, ph, hperf, _, e⟩ | ⟨d, rest, ph, _, _, e⟩ | ⟨rest, _, _, e⟩ |
    ⟨x, v, rest, hidle, _, e⟩ | ⟨hidle, _, e⟩ <;> rw [e]
  · exact nomatch h.symm.trans hperf
  · exact ⟨rfl, rfl⟩
  · exact ⟨rfl, rfl⟩
  · exact ⟨hidle, rfl⟩
  · exact ⟨hidle, rfl⟩

/-- Settles O32: what performing a descriptor answers, `descriptorNext_responds`, and `stepNext_of_performs_none`. -/
theorem oneResponsePerCommand : Obligations.OneResponsePerCommand := by
  intro s
  cases hperf : s.performs with
  | none =>
    obtain ⟨hphase, hresponses⟩ := stepNext_of_performs_none hperf
    exact ⟨_, step_eq s, hphase, hresponses⟩
  | some d =>
    obtain ⟨rest, ph, hstep, htaken, hkept⟩ := step_performs hperf
    obtain ⟨hresponses, hphase, hinputs⟩ := descriptorNext_responds d { s with inputs := rest, phase := ph }
    refine ⟨_, hstep, hphase, hresponses, ?_⟩
    rw [hinputs]
    exact ⟨htaken, hkept⟩

end Sys2Proof.Machine
end

/-! ## Proofs: the LOADKEY family

The whole next state of LOADKEY, by the order of its checks (40_loadkey.md). -/

section
/-! ### The meaning of LOADKEY (O6, O7) -/

namespace Sys2Proof.Machine

theorem Memory.read4_eq_ofNat_beWord (m : Memory) (a : Nat) :
    m.read4 a = BitVec.ofNat 32 (Reference.beWord m a) := by
  rw [← Memory.read4_toNat, BitVec.ofNat_toNat, BitVec.setWidth_eq]

/-- `loadkeyNext` in the numbers of 40_loadkey.md R71: the big-endian key words, and the 16 reads as one record. -/
theorem loadkeyNext_eq (o : KeyOperands) (s : State) :
    loadkeyNext o s =
      { s with
        k := { k0 := BitVec.ofNat 32 (Reference.beWord s.mem o.keyAddr)
               k1 := BitVec.ofNat 32 (Reference.beWord s.mem (o.keyAddr + 4))
               k2 := BitVec.ofNat 32 (Reference.beWord s.mem (o.keyAddr + 8))
               k3 := BitVec.ofNat 32 (Reference.beWord s.mem (o.keyAddr + 12)) }
        rounds := o.roundsIn
        keyValid := true
        phase := .idle
        responses := s.responses ++ [.ok]
        accesses := s.accesses ++ accessesFrom .read s.mem o.keyAddr 16 } := by
  simp only [← loadkeyNext_accesses, ← Memory.read4_eq_ofNat_beWord]
  rfl

theorem exec_loadkey_error {o : KeyOperands} {e : Status} (h : loadkeyStatus o = e) (he : e ≠ .ok) (s : State) :
    exec (.loadkey o) s = .next (s.respond e) := by
  subst h
  exact execLoadkey_error he s

/-- Settles O6: W0 alone selects the command, and each branch of the checks fixes the status in numbers,
`loadkeyStatus_eq`, which fixes the next state. -/
theorem loadkeyMeaning : Obligations.LoadkeyMeaning := by
  intro o s
  refine ⟨fun _ _ _ => decode_of_loadkey rfl, ?_⟩
  have hstatus := loadkeyStatus_eq o
  by_cases hwindow : o.key.base.toNat + o.key.len.toNat > 2 ^ 32
  · rw [if_pos hwindow] at hstatus ⊢
    exact exec_loadkey_error hstatus (by decide) s
  · rw [if_neg hwindow] at hstatus ⊢
    by_cases hlen : o.key.len.toNat ≠ 16
    · rw [if_pos hlen] at hstatus ⊢
      exact exec_loadkey_error hstatus (by decide) s
    · rw [if_neg hlen] at hstatus ⊢
      rw [exec_loadkey_ok hstatus, loadkeyNext_eq]
      rfl

/-- Settles O7: the two failing branches of `loadkeyMeaning` change the phase and the responses only. -/
theorem failedLoadkeyKeepsKey : Obligations.FailedLoadkeyKeepsKey := by
  intro o s hfails
  obtain ⟨-, hexec⟩ := loadkeyMeaning o s
  by_cases hwindow : o.key.base.toNat + o.key.len.toNat > 2 ^ 32
  · rw [if_pos hwindow] at hexec ⊢
    exact ⟨_, hexec, rfl, rfl, rfl, rfl, rfl, rfl⟩
  · rw [if_neg hwindow, if_pos (hfails.resolve_left hwindow)] at hexec
    rw [if_neg hwindow]
    exact ⟨_, hexec, rfl, rfl, rfl, rfl, rfl, rfl⟩

end Sys2Proof.Machine
end

/-! ## Proofs: the datapath family

The primitives of the round datapath as arithmetic and bit by bit, the half-rounds and their inverses, and SUM along
the loops (41_datapath.md). -/

section
/-! ### The 32-bit primitives and MIX (O16, O17, O18) -/

namespace Sys2Proof.Machine

theorem sub32_toNat_cast (a b : Word) : ((sub32 a b).toNat : Int) = ((a.toNat : Int) - b.toNat) % 2 ^ 32 := by
  have hb := b.isLt
  rw [sub32_toNat]
  omega

/-- Subtraction by an adder: the complement of `b`, and a carry in (41_datapath.md R81). -/
theorem sub32_eq_add32_complement (a b : Word) : sub32 a b = add32 a (add32 (xor32 b 0xFFFFFFFF#32) 1) := by
  have hnot : xor32 b 0xFFFFFFFF#32 = ~~~b := BitVec.xor_allOnes
  rw [hnot, sub32, add32, add32, BitVec.sub_eq_add_neg, BitVec.neg_eq_not_add]
  rfl

theorem mul32_toNat (a b : Word) : (mul32 a b).toNat = (a.toNat * b.toNat) % 2 ^ 32 := BitVec.toNat_mul a b

/-- Settles O16: the three operations as numbers, and the difference as a sum. -/
theorem sumsWrapModulo : Obligations.SumsWrapModulo := fun a b =>
  ⟨add32_toNat a b, sub32_toNat_cast a b, sub32_eq_add32_complement a b, mul32_toNat a b⟩

theorem shl32_getLsbD (v : Word) (n : Nat) {i : Nat} (hi : i < 32) :
    (shl32 v n).getLsbD i = (decide (n ≤ i) && v.getLsbD (i - n)) := by
  rw [shl32, BitVec.getLsbD_shiftLeft]
  simp only [hi, decide_true, Bool.true_and, ← decide_not, Nat.not_lt]

theorem lsr32_getLsbD (v : Word) (n i : Nat) : (lsr32 v n).getLsbD i = v.getLsbD (i + n) := by
  rw [lsr32, BitVec.getLsbD_ushiftRight, Nat.add_comm]

/-- Settles O17: above bit 26 the right shift by 5 reads past bit 31, where it finds 0. -/
theorem shiftsMoveBits : Obligations.ShiftsMoveBits := by
  intro v
  refine ⟨shl32_four_toNat v, lsr32_toNat v 5, lsr32_toNat v 11, fun i hi => shl32_getLsbD v 4 hi, fun i _ => ?_⟩
  rw [lsr32_getLsbD]
  by_cases h : i ≤ 26
  · simp [h]
  · rw [BitVec.getLsbD_of_ge v (i + 5) (by omega)]
    simp [h]

/-- Settles O18: `mix_toNat`, and the six examples of 41_datapath.md R86 evaluated. -/
theorem mixXorsThenAdds : Obligations.MixXorsThenAdds :=
  ⟨mix_toNat, by decide, by decide, by decide, by decide, by decide, by decide⟩

end Sys2Proof.Machine
end

section
/-! ### The key terms (O19) -/

namespace Sys2Proof.Machine

theorem KeySchedule.word_selLo_toNat (k : KeySchedule) (s : Word) :
    (k.word (selLo s)).toNat = Reference.keyWord k (s.toNat % 4) := by
  have hsel := selLo_toNat s
  rw [KeySchedule.word_toNat k (by omega), hsel]

theorem KeySchedule.word_selHi_toNat (k : KeySchedule) (s : Word) :
    (k.word (selHi s)).toNat = Reference.keyWord k (s.toNat / 2 ^ 11 % 4) := by
  have hsel : (selHi s).toNat = s.toNat / 2 ^ 11 % 4 := selHi_toNat s
  rw [KeySchedule.word_toNat k (by omega), hsel]

/-- Settles O19: each selector is below 4, so the multiplexer gives the key word of its number, and each key term is
the sum with SUM. -/
theorem selectorsPickKeyWord : Obligations.SelectorsPickKeyWord := by
  intro k s
  have hlo := k.word_selLo_toNat s
  have hhi := k.word_selHi_toNat s
  refine ⟨selLo_toNat s, selHi_toNat s, hlo, hhi, ?_, ?_⟩
  · rw [ktLo, add32_toNat, hlo]
  · rw [ktHi, add32_toNat, hhi]

end Sys2Proof.Machine
end

section
/-! ### The half-rounds undo each other (O20) -/

namespace Sys2Proof.Machine

theorem sub32_add32_cancel (a b : Word) : sub32 (add32 a b) b = a := BitVec.add_sub_cancel a b

theorem add32_sub32_cancel (a b : Word) : add32 (sub32 a b) b = a := BitVec.sub_add_cancel a b

/-! A half-round changes one of V0 and V1 by a term read from the other and from SUM, so its inverse meets the same
term (41_datapath.md R91). -/

theorem halfD0_halfE0 (k : KeySchedule) (w : Work) : halfD0 k (halfE0 k w) = w := by
  simp only [halfD0, halfE0, sub32_add32_cancel]

theorem halfD1_halfE1 (k : KeySchedule) (w : Work) : halfD1 k (halfE1 k w) = w := by
  simp only [halfD1, halfE1, sub32_add32_cancel]

theorem halfE0_halfD0 (k : KeySchedule) (w : Work) : halfE0 k (halfD0 k w) = w := by
  simp only [halfE0, halfD0, add32_sub32_cancel]

theorem halfE1_halfD1 (k : KeySchedule) (w : Work) : halfE1 k (halfD1 k w) = w := by
  simp only [halfE1, halfD1, add32_sub32_cancel]

/-- Settles O20: the four inverses. -/
theorem halfRoundsInvert : Obligations.HalfRoundsInvert := fun k w =>
  ⟨halfD0_halfE0 k w, halfD1_halfE1 k w, halfE0_halfD0 k w, halfE1_halfD1 k w⟩

end Sys2Proof.Machine
end

section
/-! ### SUM along the loops (O21) -/

namespace Sys2Proof.Machine

/-- The loop of DECRYPT from SUM = `mul32(DELTA, n)` on, in its course: each iteration takes one DELTA away. -/
theorem repeatTimes_decryptIteration_sum (k : KeySchedule) {w : Work} {n : Nat}
    (h : w.sum.toNat = Reference.sumAt n) {i : Nat} (hi : i ≤ n) :
    (repeatTimes i (decryptIteration k) w).sum.toNat = Reference.sumAt (n - i) := by
  induction i with
  | zero => exact h
  | succ i ih =>
    have hbefore : n - i = n - (i + 1) + 1 := by omega
    have hsum := ih (by omega)
    rw [hbefore] at hsum
    rw [repeatTimes_succ_last, decryptIteration_sum, sub32_delta_toNat hsum]

/-- Settles O21: SUM at the start of iteration `i` of either loop, one DELTA further between its half-rounds, and the
ends of the two loops. -/
theorem sumSequence : Obligations.SumSequence := by
  intro k rounds v0 v1 i hi
  obtain ⟨hencrypt, -⟩ := repeatTimes_encryptIteration k (w := Work.start v0 v1 0) rfl i
  have hdecrypt := repeatTimes_decryptIteration_sum k (w := Work.start v0 v1 (mul32 Config.delta rounds))
    (mul32_delta_toNat rounds) hi.le
  obtain ⟨hencryptEnd, -⟩ := encryptWork_eq_reference k rounds v0 v1
  obtain ⟨hdecryptEnd, -⟩ := decryptWork_eq_reference k rounds v0 v1
  refine ⟨⟨hencrypt, ?_⟩, ⟨hdecrypt, ?_⟩, hencryptEnd, hdecryptEnd⟩
  · rw [sumUp_sum, halfE0_sum, add32_delta_toNat hencrypt]
  · have hbefore : rounds.toNat - i = rounds.toNat - i - 1 + 1 := by omega
    rw [hbefore] at hdecrypt
    rw [sumDown_sum, halfD1_sum, sub32_delta_toNat hdecrypt]

end Sys2Proof.Machine
end

/-! ## Proofs: the ENCRYPT family

The meaning of ENCRYPT, and what both block commands do with ROUNDS = 0 and with ROUNDS = 1 (42_encrypt.md). -/

section
/-! ### The checks and the output block of a block command -/

namespace Sys2Proof.Machine

theorem exec_of_instrStatus_eq {i : Instr} {s : State} {e : Status} (h : instrStatus s.keyValid i = e)
    (he : e ≠ .ok) : exec i s = .next (s.respond e) := by
  subst h
  exact exec_error he

/-- The checks of a block command in order, each with its error, and what is left to show when all of them pass
(42_encrypt.md R96, 43_decrypt.md R108). -/
theorem exec_block_checks {i : Instr} {o : BlockOperands} {s : State} {success : Prop}
    (hi : instrStatus s.keyValid i = blockStatus s.keyValid o) (hok : blockStatus s.keyValid o = .ok → success) :
    if o.input.base.toNat + o.input.len.toNat > 2 ^ 32 ∨ o.output.base.toNat + o.output.len.toNat > 2 ^ 32 then
      exec i s = .next { s with phase := .idle, responses := s.responses ++ [.badDescriptor] }
    else if s.keyValid = false then
      exec i s = .next { s with phase := .idle, responses := s.responses ++ [.noKey] }
    else if o.inOff.toNat + 8 > o.input.len.toNat ∨ o.outOff.toNat + 8 > o.output.len.toNat then
      exec i s = .next { s with phase := .idle, responses := s.responses ++ [.bufferTooShort] }
    else success := by
  have hstatus := blockStatus_eq s.keyValid o
  split_ifs at hstatus ⊢ with hwindow hkey hbuffer
  · exact exec_of_instrStatus_eq (hi.trans hstatus) (by decide)
  · exact exec_of_instrStatus_eq (hi.trans hstatus) (by decide)
  · exact exec_of_instrStatus_eq (hi.trans hstatus) (by decide)
  · exact hok hstatus

/-- The two output words after a block command are V0 and V1 (20_memory.md R38). -/
theorem blockNext_read4 (work : KeySchedule → Word → Word → Word → Work) {o : BlockOperands} {s : State}
    (hm : s.mem.wf = true) (h : blockStatus s.keyValid o = .ok) :
    (blockNext work o s).mem.read4 o.outAddr = (blockWork work o s).v0 ∧
      (blockNext work o s).mem.read4 (o.outAddr + 4) = (blockWork work o s).v1 := by
  obtain ⟨hv0, hv1, -⟩ := Memory.read_writeBlock hm (outAddr_inMem h) (blockWork work o s).v0 (blockWork work o s).v1
  exact ⟨hv0, hv1⟩

/-- The block at the output of a block command, as the pair of numbers the reference cipher works on. -/
theorem blockNext_beWord (work : KeySchedule → Word → Word → Word → Work) {o : BlockOperands} {s : State}
    (hm : s.mem.wf = true) (h : blockStatus s.keyValid o = .ok) :
    (Reference.beWord (blockNext work o s).mem o.outAddr, Reference.beWord (blockNext work o s).mem (o.outAddr + 4)) =
      (blockWork work o s).block := by
  obtain ⟨hv0, hv1⟩ := blockNext_read4 work hm h
  rw [← Memory.read4_toNat, ← Memory.read4_toNat, hv0, hv1, Work.block]

/-- The work of an ENCRYPT is the reference encryption of its input block. -/
theorem blockWork_encrypt_block (o : BlockOperands) (s : State) :
    (blockWork encryptWork o s).block =
      Reference.encrypt s.k s.rounds.toNat
        (Reference.beWord s.mem o.inAddr, Reference.beWord s.mem (o.inAddr + 4)) := by
  rw [← Memory.read4_toNat, ← Memory.read4_toNat]
  exact (encryptWork_eq_reference s.k s.rounds _ _).2

/-- The work of a DECRYPT is the reference decryption of its input block. -/
theorem blockWork_decrypt_block (o : BlockOperands) (s : State) :
    (blockWork decryptWork o s).block =
      Reference.decrypt s.k s.rounds.toNat
        (Reference.beWord s.mem o.inAddr, Reference.beWord s.mem (o.inAddr + 4)) := by
  rw [← Memory.read4_toNat, ← Memory.read4_toNat]
  exact (decryptWork_eq_reference s.k s.rounds _ _).2

end Sys2Proof.Machine
end

section
/-! ### The meaning of ENCRYPT (O8) -/

namespace Sys2Proof.Machine

/-- Settles O8: the checks, and then the output block is the work, which is the reference cipher's. -/
theorem encryptMeaning : Obligations.EncryptMeaning := by
  intro o s hm
  refine ⟨decode_of_encrypt rfl, exec_block_checks rfl fun hok => ?_⟩
  have hblock := (blockNext_beWord encryptWork hm hok).trans (blockWork_encrypt_block o s)
  exact ⟨blockNext encryptWork o s, exec_encrypt_ok hok, rfl, congrArg Prod.fst hblock, congrArg Prod.snd hblock,
    fun _ hx => blockNext_mem_outside encryptWork o s hx⟩

end Sys2Proof.Machine
end

section
/-! ### ROUNDS = 0 (O11) -/

namespace Sys2Proof.Machine

theorem encryptWork_zero (k : KeySchedule) (v0 v1 : Word) : encryptWork k 0 v0 v1 = Work.start v0 v1 0 :=
  repeatTimes_zero _ _

theorem mul32_zero (a : Word) : mul32 a 0 = 0 := BitVec.mul_zero

theorem decryptWork_zero (k : KeySchedule) (v0 v1 : Word) : decryptWork k 0 v0 v1 = Work.start v0 v1 0 := by
  rw [decryptWork, mul32_zero]
  exact repeatTimes_zero _ _

/-- Equal words have equal bytes: the converse of `Memory.read4_congr`. -/
theorem Memory.read_eq_of_read4_eq {m n : Memory} {a b : Nat} (h : m.read4 a = n.read4 b) {j : Nat} (hj : j < 4) :
    m.read (a + j) = n.read (b + j) := by
  interval_cases j
  · simpa using congrArg packByte0 h
  · simpa using congrArg packByte1 h
  · simpa using congrArg packByte2 h
  · simpa using congrArg packByte3 h

/-- Equal blocks have equal bytes. -/
theorem Memory.read_eq_of_block_eq {m n : Memory} {a b : Nat} (h0 : m.read4 a = n.read4 b)
    (h1 : m.read4 (a + 4) = n.read4 (b + 4)) {j : Nat} (hj : j < 8) : m.read (a + j) = n.read (b + j) := by
  by_cases hlow : j < 4
  · exact Memory.read_eq_of_read4_eq h0 hlow
  · have hbyte := Memory.read_eq_of_read4_eq h1 (show j - 4 < 4 by omega)
    rwa [Nat.add_assoc, Nat.add_assoc, Nat.add_sub_cancel' (by omega)] at hbyte

/-- With ROUNDS = 0 a block command whose work then ends where it starts copies the 8 bytes, and nothing else changes. -/
theorem blockNext_roundsZero {work : KeySchedule → Word → Word → Word → Work} {o : BlockOperands} {s : State}
    (hwork : ∀ k v0 v1, work k 0 v0 v1 = Work.start v0 v1 0) (hm : s.mem.wf = true) (hrounds : s.rounds = 0)
    (h : blockStatus s.keyValid o = .ok) :
    (∀ j, j < 8 → (blockNext work o s).mem.read (o.outAddr + j) = s.mem.read (o.inAddr + j)) ∧
      (∀ x, x < o.outAddr ∨ o.outAddr + 8 ≤ x → (blockNext work o s).mem.read x = s.mem.read x) := by
  obtain ⟨hv0, hv1⟩ := blockNext_read4 work hm h
  rw [blockWork, hrounds, hwork] at hv0 hv1
  exact ⟨fun _ hj => Memory.read_eq_of_block_eq hv0 hv1 hj, fun _ hx => blockNext_mem_outside work o s hx⟩

/-- Settles O11: with no iteration the work of either command ends where it starts, with the words read. -/
theorem roundsZeroIsIdentity : Obligations.RoundsZeroIsIdentity := by
  refine ⟨fun k v0 v1 => ⟨mul32_zero _, decryptWork_zero k v0 v1, encryptWork_zero k v0 v1⟩, ?_⟩
  intro o s hm hrounds i hi
  rcases hi with rfl | rfl
  · exact exec_block_checks rfl fun hok =>
      ⟨_, exec_encrypt_ok hok, rfl, blockNext_roundsZero encryptWork_zero hm hrounds hok⟩
  · exact exec_block_checks rfl fun hok =>
      ⟨_, exec_decrypt_ok hok, rfl, blockNext_roundsZero decryptWork_zero hm hrounds hok⟩

end Sys2Proof.Machine
end

section
/-! ### ROUNDS = 1 (O14) -/

namespace Sys2Proof.Machine

/-! The one iteration selects K[0] at SUM = 0 and K[3] at SUM = DELTA (42_encrypt.md R99 (f)). -/

theorem termLo_zero (k : KeySchedule) : Reference.termLo k 0 = (0 + k.k0.toNat) % 2 ^ 32 := rfl

theorem termHi_one (k : KeySchedule) : Reference.termHi k 1 = (0x9E3779B9 + k.k3.toNat) % 2 ^ 32 := rfl

theorem encrypt_one_congr {k k' : KeySchedule} (h0 : k'.k0 = k.k0) (h3 : k'.k3 = k.k3) (v : Nat × Nat) :
    Reference.encrypt k' 1 v = Reference.encrypt k 1 v := by
  simp only [Reference.encrypt, Reference.encryptRound, Nat.zero_add, termLo_zero, termHi_one, h0, h3]

theorem decrypt_one_congr {k k' : KeySchedule} (h0 : k'.k0 = k.k0) (h3 : k'.k3 = k.k3) (v : Nat × Nat) :
    Reference.decrypt k' 1 v = Reference.decrypt k 1 v := by
  simp only [Reference.decrypt, Reference.decryptRound, Nat.zero_add, termLo_zero, termHi_one, h0, h3]

/-- What a block command writes depends on the block its work ends with only. -/
theorem blockNext_mem_congr {work : KeySchedule → Word → Word → Word → Work} {o : BlockOperands} {s s' : State}
    (hmem : s'.mem = s.mem) (hblock : (blockWork work o s').block = (blockWork work o s).block) :
    (blockNext work o s').mem = (blockNext work o s).mem := by
  obtain ⟨hv0, hv1⟩ := Prod.mk.inj hblock
  simp only [blockNext, hmem, BitVec.eq_of_toNat_eq hv0, BitVec.eq_of_toNat_eq hv1]

/-- Settles O14: neither the checks nor the block of one iteration depends on K[1] or K[2]. -/
theorem oneRoundIgnoresMiddleKeyWords : Obligations.OneRoundIgnoresMiddleKeyWords := by
  intro o s k1 k2 hrounds i hi
  have hone : s.rounds.toNat = 1 := by rw [hrounds]; rfl
  by_cases hok : blockStatus s.keyValid o = .ok
  · rcases hi with rfl | rfl
    · refine ⟨_, _, exec_encrypt_ok hok, exec_encrypt_ok hok, blockNext_mem_congr rfl ?_, rfl⟩
      simp only [blockWork_encrypt_block, hone]
      exact encrypt_one_congr rfl rfl _
    · refine ⟨_, _, exec_decrypt_ok hok, exec_decrypt_ok hok, blockNext_mem_congr rfl ?_, rfl⟩
      simp only [blockWork_decrypt_block, hone]
      exact decrypt_one_congr rfl rfl _
  · have herror : instrStatus s.keyValid i ≠ .ok := by rcases hi with rfl | rfl <;> exact hok
    exact ⟨_, _, exec_error herror, exec_error herror, rfl, rfl⟩

end Sys2Proof.Machine
end

/-! ## Proofs: the DECRYPT family

The meaning of DECRYPT, and ENCRYPT as its inverse (43_decrypt.md). -/

section
/-! ### The meaning of DECRYPT (O9) -/

namespace Sys2Proof.Machine

/-- Settles O9: the checks, and then the output block is the work, which is the reference cipher's. -/
theorem decryptMeaning : Obligations.DecryptMeaning := by
  intro o s hm
  refine ⟨decode_of_decrypt rfl, exec_block_checks rfl fun hok => ?_⟩
  have hblock := (blockNext_beWord decryptWork hm hok).trans (blockWork_decrypt_block o s)
  exact ⟨blockNext decryptWork o s, exec_decrypt_ok hok, rfl, congrArg Prod.fst hblock, congrArg Prod.snd hblock,
    fun _ hx => blockNext_mem_outside decryptWork o s hx⟩

end Sys2Proof.Machine
end

section
/-! ### Two block commands in turn, the second undoing the first -/

namespace Sys2Proof.Machine

/-- Started from the block that `work` ends with, `undo` ends with the block that `work` started from, under the same
key and ROUNDS. -/
def WorkUndoes (undo work : KeySchedule → Word → Word → Word → Work) : Prop :=
  ∀ k rounds v0 v1,
    (undo k rounds (work k rounds v0 v1).v0 (work k rounds v0 v1).v1).block = (v0.toNat, v1.toNat)

/-- Equal bytes make equal blocks: the converse of `Memory.read_eq_of_block_eq`. -/
theorem Memory.block_congr {m n : Memory} {a b : Nat} (h : ∀ j, j < 8 → m.read (a + j) = n.read (b + j)) :
    m.read4 a = n.read4 b ∧ m.read4 (a + 4) = n.read4 (b + 4) := by
  refine ⟨Memory.read4_congr fun j hj => h j (by omega), Memory.read4_congr fun j hj => ?_⟩
  rw [Nat.add_assoc, Nat.add_assoc]
  exact h (4 + j) (by omega)

/-- A block command that reads what another wrote, under the same K and ROUNDS, and whose work undoes the other's
writes what the other read; the placements and whatever else the two states hold do not matter. -/
theorem blockNext_undoes {undo work : KeySchedule → Word → Word → Word → Work} (hundo : WorkUndoes undo work)
    {o o' : BlockOperands} {s u : State} (hs : s.mem.wf = true) (ho : blockStatus s.keyValid o = .ok)
    (hu : u.mem.wf = true) (ho' : blockStatus u.keyValid o' = .ok) (hk : u.k = s.k) (hrounds : u.rounds = s.rounds)
    (hread : ∀ j, j < 8 → u.mem.read (o'.inAddr + j) = (blockNext work o s).mem.read (o.outAddr + j))
    {j : Nat} (hj : j < 8) : (blockNext undo o' u).mem.read (o'.outAddr + j) = s.mem.read (o.inAddr + j) := by
  obtain ⟨hw0, hw1⟩ := blockNext_read4 work hs ho
  obtain ⟨hin0, hin1⟩ := Memory.block_congr hread
  have hback : (blockWork undo o' u).block =
      ((s.mem.read4 o.inAddr).toNat, (s.mem.read4 (o.inAddr + 4)).toNat) := by
    rw [blockWork, hk, hrounds, hin0, hin1, hw0, hw1]
    exact hundo s.k s.rounds _ _
  obtain ⟨hv0, hv1⟩ := Prod.mk.inj hback
  obtain ⟨hout0, hout1⟩ := blockNext_read4 undo hu ho'
  exact Memory.read_eq_of_block_eq (hout0.trans (BitVec.eq_of_toNat_eq hv0))
    (hout1.trans (BitVec.eq_of_toNat_eq hv1)) hj

end Sys2Proof.Machine
end

section
/-! ### ENCRYPT undoes DECRYPT (O13) -/

namespace Sys2Proof.Machine

theorem sumUp_sumDown (w : Work) : sumUp (sumDown w) = w := by
  simp only [sumUp, sumDown, add32_sub32_cancel]

/-- RC takes no part in an iteration but its own count. -/
theorem encryptIteration_countIteration (k : KeySchedule) (w : Work) :
    encryptIteration k (countIteration w) = countIteration (encryptIteration k w) := rfl

/-- An iteration of ENCRYPT undoes the iteration of DECRYPT before it, half-round by half-round, but for RC, which
counts both (41_datapath.md R91). -/
theorem encryptIteration_decryptIteration (k : KeySchedule) (w : Work) :
    encryptIteration k (decryptIteration k w) = countIteration (countIteration w) := by
  rw [decryptIteration, encryptIteration_countIteration, encryptIteration, halfE0_halfD0, sumUp_sumDown,
    halfE1_halfD1]

/-- ENCRYPT undoes DECRYPT on the reference's blocks: its last iteration undoes the first one of DECRYPT, and the
iterations between undo each other. -/
theorem encrypt_decrypt_block (k : KeySchedule) (n : Nat) : ∀ {w : Work}, w.sum.toNat = Reference.sumAt n →
    Reference.encrypt k n (Reference.decrypt k n w.block) = w.block := by
  induction n with
  | zero => exact fun _ => rfl
  | succ n ih =>
    intro w h
    have hsum : (decryptIteration k w).sum.toNat = Reference.sumAt n := by
      rw [decryptIteration_sum, sub32_delta_toNat h]
    calc Reference.encrypt k (n + 1) (Reference.decrypt k (n + 1) w.block)
      _ = Reference.encryptRound k n (Reference.encrypt k n (Reference.decrypt k n (decryptIteration k w).block)) := by
        rw [Reference.encrypt, Reference.decrypt, decryptIteration_block k h]
      _ = (encryptIteration k (decryptIteration k w)).block := by
        rw [ih hsum, encryptIteration_block k hsum]
      _ = w.block := by
        rw [encryptIteration_decryptIteration]
        rfl

theorem encryptWork_undoes_decryptWork : WorkUndoes encryptWork decryptWork := by
  intro k rounds v0 v1
  obtain ⟨-, hencrypt⟩ := encryptWork_eq_reference k rounds (decryptWork k rounds v0 v1).v0
    (decryptWork k rounds v0 v1).v1
  obtain ⟨-, hdecrypt⟩ := decryptWork_eq_reference k rounds v0 v1
  rw [hencrypt, ← Work.block, hdecrypt]
  exact encrypt_decrypt_block k rounds.toNat (w := Work.start v0 v1 (mul32 Config.delta rounds))
    (mul32_delta_toNat rounds)

/-- Settles O13: the work of ENCRYPT undoes that of DECRYPT, so its output bytes are those DECRYPT read. -/
theorem encryptUndoesDecrypt : Obligations.EncryptUndoesDecrypt := by
  intro s oD oE hs hD
  refine ⟨blockNext decryptWork oD s, exec_decrypt_ok hD, rfl, fun u hu hk hrounds hE hread => ?_⟩
  exact ⟨blockNext encryptWork oE u, exec_encrypt_ok hE, rfl,
    fun _ hj => blockNext_undoes encryptWork_undoes_decryptWork hs hD hu hE hk hrounds hread hj⟩

end Sys2Proof.Machine
end

/-! ## Proofs: the validate family

What validate compares, and the round trip it confirms (44_validate.md). -/

section
/-! ### validate compares a prefix (O45) -/

namespace Sys2Proof.Machine

theorem matchesPrefix_iff : ∀ {expected actual : List Byte},
    matchesPrefix expected actual = true ↔ expected <+: actual
  | [], _ => iff_of_true rfl List.nil_prefix
  | _ :: _, [] => iff_of_false Bool.false_ne_true (List.cons_ne_nil _ _ ∘ List.prefix_nil.mp)
  | e :: es, a :: as => by
    rw [List.cons_prefix_cons, ← matchesPrefix_iff (expected := es), matchesPrefix]
    split_ifs with hea
    · exact (and_iff_right hea).symm
    · exact iff_of_false not_false fun ⟨hhead, _⟩ => hea hhead

/-- `List.prefix_iff_getElem?`, spelt as the statement about `validate` compares the positions. -/
theorem prefix_iff_forall_getElem?_eq {expected actual : List Byte} :
    expected <+: actual ↔ ∀ j, j < expected.length → expected[j]? = actual[j]? := by
  rw [List.prefix_iff_getElem?]
  refine forall₂_congr fun j hj => ?_
  rw [List.getElem?_eq_getElem hj, eq_comm]

/-- Settles O45: matching is being a prefix, which is agreeing at each position of `expected`. -/
theorem validateComparesPrefix : Obligations.ValidateComparesPrefix := by
  intro expected actual
  split_ifs with hshort
  · exact if_pos hshort
  · have hmatch : matchesPrefix expected actual = true ↔ ∀ j, j < expected.length → expected[j]? = actual[j]? :=
      matchesPrefix_iff.trans prefix_iff_forall_getElem?_eq
    rw [validate, if_neg hshort, Bool.eq_iff_iff.mpr (hmatch.trans decide_eq_true_iff.symm)]

end Sys2Proof.Machine
end

section
/-! ### DECRYPT undoes ENCRYPT, and validate confirms it (O46) -/

namespace Sys2Proof.Machine

/-- Field by field, since comparing `sumUp w` with `w` would unfold DELTA's literal. -/
theorem sumDown_sumUp (w : Work) : sumDown (sumUp w) = w := by
  rw [sumDown, sumUp_sum, sub32_add32_cancel, sumUp_v0, sumUp_v1, sumUp_rc]

/-- RC takes no part in an iteration but its own count. -/
theorem decryptIteration_countIteration (k : KeySchedule) (w : Work) :
    decryptIteration k (countIteration w) = countIteration (decryptIteration k w) := rfl

/-- An iteration of DECRYPT undoes the iteration of ENCRYPT before it, half-round by half-round, but for RC, which
counts both (41_datapath.md R91). -/
theorem decryptIteration_encryptIteration (k : KeySchedule) (w : Work) :
    decryptIteration k (encryptIteration k w) = countIteration (countIteration w) := by
  rw [encryptIteration, decryptIteration_countIteration, decryptIteration, halfD1_halfE1, sumDown_sumUp,
    halfD0_halfE0]

/-- DECRYPT undoes ENCRYPT on the reference's blocks: its first iteration undoes the last one of ENCRYPT, and the
iterations left undo those before. -/
theorem decrypt_encrypt_block (k : KeySchedule) {w : Work} (h : w.sum.toNat = Reference.sumAt 0) (n : Nat) :
    Reference.decrypt k n (Reference.encrypt k n w.block) = w.block := by
  induction n with
  | zero => rfl
  | succ n ih =>
    obtain ⟨hsum, hblock⟩ := repeatTimes_encryptIteration k h n
    have hnext : (encryptIteration k (repeatTimes n (encryptIteration k) w)).sum.toNat = Reference.sumAt (n + 1) := by
      rw [encryptIteration_sum, add32_delta_toNat hsum]
    have hround : Reference.decryptRound k n (Reference.encryptRound k n (Reference.encrypt k n w.block)) =
        Reference.encrypt k n w.block := by
      rw [← hblock, ← encryptIteration_block k hsum, ← decryptIteration_block k hnext,
        decryptIteration_encryptIteration]
      rfl
    rw [Reference.encrypt, Reference.decrypt, hround, ih]

theorem decryptWork_undoes_encryptWork : WorkUndoes decryptWork encryptWork := by
  intro k rounds v0 v1
  obtain ⟨-, hdecrypt⟩ := decryptWork_eq_reference k rounds (encryptWork k rounds v0 v1).v0
    (encryptWork k rounds v0 v1).v1
  obtain ⟨-, hencrypt⟩ := encryptWork_eq_reference k rounds v0 v1
  rw [hdecrypt, ← Work.block, hencrypt]
  exact decrypt_encrypt_block k (w := Work.start v0 v1 0) rfl rounds.toNat

theorem Memory.bytes_congr {m n : Memory} : ∀ {len a b : Nat},
    (∀ j, j < len → m.read (a + j) = n.read (b + j)) → m.bytes a len = n.bytes b len
  | 0, _, _, _ => rfl
  | len + 1, a, b, h => by
    have htail : ∀ j, j < len → m.read (a + 1 + j) = n.read (b + 1 + j) := fun j hj => by
      rw [Nat.add_assoc, Nat.add_assoc]
      exact h (1 + j) (by omega)
    exact congrArg₂ List.cons (h 0 len.succ_pos) (Memory.bytes_congr htail)

theorem validate_self (bytes : List Byte) : validate bytes bytes = .ok true := by
  rw [validate, if_neg (lt_irrefl _), matchesPrefix_iff.mpr (List.prefix_refl bytes)]

/-- Settles O46: DECRYPT reads what ENCRYPT wrote, since both work in place, so it writes back the bytes ENCRYPT read,
and validate of equal bytes is true. -/
theorem validateConfirmsRoundTrip : Obligations.ValidateConfirmsRoundTrip := by
  intro o s hm hok hinPlace
  refine ⟨blockNext encryptWork o s, blockNext decryptWork o (blockNext encryptWork o s), exec_encrypt_ok hok,
    exec_decrypt_ok hok, ?_⟩
  have hread : ∀ j, j < 8 → (blockNext encryptWork o s).mem.read (o.inAddr + j) =
      (blockNext encryptWork o s).mem.read (o.outAddr + j) := fun _ _ => by rw [hinPlace]
  have hbytes := Memory.bytes_congr fun _ hj => (blockNext_undoes decryptWork_undoes_encryptWork hm hok
    (blockNext_wf encryptWork hm hok) hok rfl rfl hread hj).symm
  rw [← hbytes, validate_self]

end Sys2Proof.Machine
end

/-! ## Proofs: the exceptions family

The status of every descriptor, what an error leaves, and the status that is never given (60_exceptions.md). -/

section
/-! ### The status of every descriptor (O28) -/

namespace Sys2Proof.Machine

theorem descriptorStatus_of_command {d : Descriptor} {i : Instr} (h : decode d = .ok i) (keyValid : Bool) :
    descriptorStatus keyValid d = instrStatus keyValid i := by
  rw [descriptorStatus, h]

theorem descriptorStatus_of_not_command {d : Descriptor} {e : DecodeError} (h : decode d = .error e)
    (keyValid : Bool) : descriptorStatus keyValid d = .badDescriptor := by
  rw [descriptorStatus, h]

/-- The status of a descriptor in numbers, its checks in order (60_exceptions.md R127). -/
theorem descriptorStatus_eq (keyValid : Bool) (d : Descriptor) :
    descriptorStatus keyValid d =
      if (d.w0.toNat % 256 ≠ 1 ∧ d.w0.toNat % 256 ≠ 2 ∧ d.w0.toNat % 256 ≠ 3) ∨ d.w0.toNat / 256 ≠ 0 then
        .badDescriptor
      else if d.w0.toNat % 256 = 1 then
        if d.w1.toNat + d.w2.toNat > 2 ^ 32 then .badDescriptor
        else if d.w2.toNat ≠ 16 then .invalidKeyLength
        else .ok
      else
        if d.w1.toNat + d.w2.toNat > 2 ^ 32 ∨ d.w4.toNat + d.w5.toNat > 2 ^ 32 then .badDescriptor
        else if keyValid = false then .noKey
        else if d.w3.toNat + 8 > d.w2.toNat ∨ d.w6.toNat + 8 > d.w5.toNat then .bufferTooShort
        else .ok := by
  by_cases hw0 : (d.w0.toNat % 256 = 1 ∨ d.w0.toNat % 256 = 2 ∨ d.w0.toNat % 256 = 3) ∧ d.w0.toNat / 256 = 0
  · rw [if_neg (by omega)]
    rcases (word0_isCommand_iff d.w0).mp hw0 with h | h | h
    · rw [if_pos (by rw [h]; rfl), descriptorStatus_of_command (decode_of_loadkey h)]
      exact loadkeyStatus_eq d.keyOperands
    · rw [if_neg (by rw [h]; decide), descriptorStatus_of_command (decode_of_encrypt h)]
      exact blockStatus_eq keyValid d.blockOperands
    · rw [if_neg (by rw [h]; decide), descriptorStatus_of_command (decode_of_decrypt h)]
      exact blockStatus_eq keyValid d.blockOperands
  · obtain ⟨e, he⟩ := decode_of_not_command (mt (word0_isCommand_iff d.w0).mpr hw0)
    rw [if_pos (by omega), descriptorStatus_of_not_command he]

/-- The one response of a step that performs a descriptor is the descriptor's status (30_encoding.md R61). -/
theorem step_performs_responds {s : State} {d : Descriptor} (h : s.performs = some d) :
    ∃ t, step s = .next t ∧ t.responses = s.responses ++ [descriptorStatus s.keyValid d] := by
  obtain ⟨_, _, hstep, -, -⟩ := step_performs h
  exact ⟨_, hstep, (descriptorNext_responds d _).1⟩

/-- Settles O28: the one response is the descriptor's status, `descriptorStatus_eq`. -/
theorem statusPriority : Obligations.StatusPriority := by
  intro s d hperf
  rw [← descriptorStatus_eq]
  exact step_performs_responds hperf

end Sys2Proof.Machine
end

section
/-! ### An error leaves the state as before (O29) -/

namespace Sys2Proof.Machine

/-- Settles O29: an error only responds, `descriptorNext_error`; IDLE, the step has taken the descriptor off the
inputs, and BUSY, it has taken nothing. -/
theorem errorsLeaveStateAsBefore : Obligations.ErrorsLeaveStateAsBefore := by
  intro s d hperf herror
  obtain ⟨rest, ph, hstep, htaken, hkept⟩ := step_performs hperf
  rw [hstep, descriptorNext_error (s := { s with inputs := rest, phase := ph }) herror]
  cases hphase : s.phase with
  | idle =>
    rw [htaken hphase]
    rfl
  | busy captured =>
    rw [hkept (by rw [hphase]; nofun)]
    rfl

end Sys2Proof.Machine
end

section
/-! ### InvalidRounds is never given (O30) -/

namespace Sys2Proof.Machine

/-- A LOADKEY of 16 key bytes in a well-formed window passes its checks (40_loadkey.md R70). -/
theorem loadkeyStatus_ok_of_sums {o : KeyOperands} (hwindow : o.key.base.toNat + o.key.len.toNat ≤ 2 ^ 32)
    (hlen : o.key.len.toNat = 16) : loadkeyStatus o = .ok :=
  loadkeyStatus_eq_ok_iff.mpr ⟨Window.wellFormed_iff.mpr hwindow, KeyOperands.keyLenIsKeyBytes_iff.mpr hlen⟩

/-- Settles O30: a step adds a descriptor's status, which is never InvalidRounds, or no response; and the checks of
LOADKEY do not look at ROUNDS_IN, which it stores. -/
theorem invalidRoundsNeverRaised : Obligations.InvalidRoundsNeverRaised := by
  refine ⟨fun s => ?responses, fun o s hwindow hlen => ?rounds⟩
  case responses =>
    cases hperf : s.performs with
    | none =>
      obtain ⟨-, hsame⟩ := stepNext_of_performs_none hperf
      exact ⟨_, step_eq s, fun x hx _ => hsame ▸ hx⟩
    | some d =>
      obtain ⟨t, hstep, hadded⟩ := step_performs_responds hperf
      refine ⟨t, hstep, fun x hx hinvalid => ?_⟩
      rw [hadded, List.mem_append, List.mem_singleton] at hx
      rcases hx with hold | hnew
      · exact hold
      · exact absurd (hnew.symm.trans hinvalid) (descriptorStatus_ne_invalidRounds s.keyValid d)
  case rounds =>
    exact ⟨loadkeyNext o s, exec_loadkey_ok (loadkeyStatus_ok_of_sums hwindow hlen) s, rfl⟩

end Sys2Proof.Machine
end

/-! ## Proofs: the reset and hazards family

The round-trip, frame and determinism laws of the block commands, and the two kinds of reset
(70_reset_and_hazards.md). -/

section
/-! ### DECRYPT undoes ENCRYPT (O12) -/

namespace Sys2Proof.Machine

/-- Settles O12: the work of DECRYPT undoes that of ENCRYPT, so its output bytes are those ENCRYPT read. -/
theorem decryptUndoesEncrypt : Obligations.DecryptUndoesEncrypt := by
  intro s oE oD hs hE
  refine ⟨blockNext encryptWork oE s, exec_encrypt_ok hE, rfl, fun u hu hk hrounds hD hread => ?_⟩
  exact ⟨blockNext decryptWork oD u, exec_decrypt_ok hD, rfl,
    fun _ hj => blockNext_undoes decryptWork_undoes_encryptWork hs hE hu hD hk hrounds hread hj⟩

end Sys2Proof.Machine
end

section
/-! ### The frame and what the output bytes depend on (O15) -/

namespace Sys2Proof.Machine

/-- A block command writes bytes that depend on K, ROUNDS and the 8 bytes read only, wherever they lie
(70_reset_and_hazards.md R160). -/
theorem blockNext_output_congr (work : KeySchedule → Word → Word → Word → Work) {o o' : BlockOperands} {s s' : State}
    (hs : s.mem.wf = true) (hs' : s'.mem.wf = true) (ho : blockStatus s.keyValid o = .ok)
    (ho' : blockStatus s'.keyValid o' = .ok) (hk : s'.k = s.k) (hrounds : s'.rounds = s.rounds)
    (hread : ∀ j, j < 8 → s'.mem.read (o'.inAddr + j) = s.mem.read (o.inAddr + j)) {j : Nat} (hj : j < 8) :
    (blockNext work o' s').mem.read (o'.outAddr + j) = (blockNext work o s).mem.read (o.outAddr + j) := by
  have hwork : blockWork work o' s' = blockWork work o s := by
    obtain ⟨hin0, hin1⟩ := Memory.block_congr hread
    rw [blockWork, blockWork, hk, hrounds, hin0, hin1]
  obtain ⟨hout0, hout1⟩ := blockNext_read4 work hs ho
  obtain ⟨hout0', hout1'⟩ := blockNext_read4 work hs' ho'
  exact Memory.read_eq_of_block_eq (by rw [hout0', hwork, hout0]) (by rw [hout1', hwork, hout1]) hj

/-- Settles O15: only a block command that succeeds writes MEM, and only its output footprint; and equal input bytes
make equal work. -/
theorem frameLaw : Obligations.FrameLaw := by
  refine ⟨fun i s => ?frame, fun o o' s s' hs hs' ho ho' hk hrounds hread => ⟨?encrypt, ?decrypt⟩⟩
  case frame =>
    by_cases hok : instrStatus s.keyValid i = .ok
    · cases i with
      | loadkey o => exact ⟨_, exec_loadkey_ok hok s, fun _ _ => rfl⟩
      | encrypt o =>
        exact ⟨_, exec_encrypt_ok hok, fun _ hx => blockNext_mem_outside _ o s (hx.resolve_left (not_not_intro hok))⟩
      | decrypt o =>
        exact ⟨_, exec_decrypt_ok hok, fun _ hx => blockNext_mem_outside _ o s (hx.resolve_left (not_not_intro hok))⟩
    · exact ⟨_, exec_error hok, fun _ _ => rfl⟩
  case encrypt =>
    exact ⟨_, _, exec_encrypt_ok ho, exec_encrypt_ok ho',
      fun _ hj => blockNext_output_congr encryptWork hs hs' ho ho' hk hrounds hread hj⟩
  case decrypt =>
    exact ⟨_, _, exec_decrypt_ok ho, exec_decrypt_ok ho',
      fun _ hj => blockNext_output_congr decryptWork hs hs' ho ho' hk hrounds hread hj⟩

end Sys2Proof.Machine
end

section
/-! ### Determinism (O39) -/

namespace Sys2Proof.Machine

theorem blockOperands_of_decode {d : Descriptor} {o : BlockOperands}
    (hd : decode d = .ok (.encrypt o) ∨ decode d = .ok (.decrypt o)) : o = d.blockOperands := by
  rcases hd with hd | hd
  · obtain ⟨-, ho⟩ : d.w0 = 2#32 ∧ o = d.blockOperands := by simpa [decode_eq_ok_iff] using hd
    exact ho
  · obtain ⟨-, ho⟩ : d.w0 = 3#32 ∧ o = d.blockOperands := by simpa [decode_eq_ok_iff] using hd
    exact ho

/-- A descriptor with an output footprint is a block command whose checks pass, and the footprint is where its words
W4 and W6 say: it has that command's effect in every state with this KEY_VALID. -/
theorem descriptorNext_of_outputFootprint {keyValid : Bool} {d : Descriptor} {b : Nat}
    (h : outputFootprint keyValid d = some b) :
    b = d.blockOperands.outAddr ∧ blockStatus keyValid d.blockOperands = .ok ∧
      ∃ work, ∀ s : State, s.keyValid = keyValid → descriptorNext d s = blockNext work d.blockOperands s := by
  obtain ⟨o, hd, ho, hb, -⟩ := outputFootprint_some h
  obtain rfl := blockOperands_of_decode hd
  refine ⟨hb, ho, ?_⟩
  rcases hd with hd | hd
  · exact ⟨encryptWork, fun s hs => descriptorNext_of_encrypt hd (hs ▸ ho)⟩
  · exact ⟨decryptWork, fun s hs => descriptorNext_of_decrypt hd (hs ▸ ho)⟩

/-- Settles O39: the one response is the descriptor's status, and the output bytes are those of one block command in
two states, `blockNext_output_congr`. -/
theorem determinismLaw : Obligations.DeterminismLaw := by
  intro s s' d hperf hperf' hs hs' hkv hk hrounds
  obtain ⟨rest, ph, hstep, -, -⟩ := step_performs hperf
  obtain ⟨rest', ph', hstep', -, -⟩ := step_performs hperf'
  refine ⟨_, _, descriptorStatus s.keyValid d, hstep, hstep', (descriptorNext_responds d _).1, ?_, ?_⟩
  · rw [← hkv]
    exact (descriptorNext_responds d _).1
  · intro b hb hread j hj
    obtain ⟨rfl, hok, work, hnext⟩ := descriptorNext_of_outputFootprint hb
    rw [hnext { s with inputs := rest, phase := ph } rfl, hnext { s' with inputs := rest', phase := ph' } hkv]
    exact blockNext_output_congr work (s := { s with inputs := rest, phase := ph })
      (s' := { s' with inputs := rest', phase := ph' }) hs hs' hok (hkv ▸ hok) hk hrounds hread hj

end Sys2Proof.Machine
end

section
/-! ### Reset while IDLE (O41) -/

namespace Sys2Proof.Machine

theorem step_of_idle_reset {s : State} {rest : List Input} (hidle : s.phase = .idle)
    (hinputs : s.inputs = .reset :: rest) : step s = .next { s with inputs := rest }.resetEngine := by
  rw [step, advance, hidle, hinputs]

theorem blockStatus_of_noKey {o : BlockOperands} (h : o.windowsWellFormed = true) : blockStatus false o = .noKey := by
  simp [blockStatus, h]

/-- Settles O41: the fields of `State.resetEngine`; without a key the first check of a block command to fail is that
of KEY_VALID. -/
theorem resetDiscardsKey : Obligations.ResetDiscardsKey := by
  intro s rest hidle hinputs
  refine ⟨_, step_of_idle_reset hidle hinputs, rfl, rfl, rfl, rfl, rfl, rfl, fun o hwindows i hi => ?_⟩
  have hstatus : instrStatus false i = .noKey := by
    rcases hi with rfl | rfl <;> exact blockStatus_of_noKey hwindows
  exact exec_of_instrStatus_eq hstatus (by decide)

end Sys2Proof.Machine
end

section
/-! ### Reset while BUSY (O42) -/

namespace Sys2Proof.Machine

/-- One output byte lands, or not, as the mask says: what `landBytes` does at each of the 8. -/
def landByte (mask : BitVec 8) (b : Nat) (done m : Memory) (j : Nat) : Memory :=
  if mask.getLsbD j then m.write (b + j) (done.read (b + j)) else m

theorem landBytes_eq_foldl (mask : BitVec 8) (b : Nat) (done m : Memory) :
    landBytes mask b done m = (List.range 8).foldl (landByte mask b done) m := rfl

theorem landByte_wf {mask : BitVec 8} {b : Nat} {done m : Memory} (hm : m.wf = true) {j : Nat}
    (hj : b + j < Config.memSize) : (landByte mask b done m j).wf = true := by
  unfold landByte
  split
  · exact Memory.wf_write hm hj _
  · exact hm

theorem read_landByte {mask : BitVec 8} {b : Nat} {done m : Memory} (hm : m.wf = true) (i j : Nat) :
    (landByte mask b done m i).read (b + j) =
      if j = i ∧ mask.getLsbD j then done.read (b + j) else m.read (b + j) := by
  unfold landByte
  by_cases hij : j = i
  · subst hij
    by_cases hlands : mask.getLsbD j <;> simp [hlands, Memory.read_write_self hm]
  · by_cases hlands : mask.getLsbD i <;> simp [hij, hlands, Memory.read_write_of_ne]

/-- What a byte reads as after some of the bytes at `b` had their turn to land. -/
theorem read_foldl_landByte {mask : BitVec 8} {b j : Nat} {done : Memory} : ∀ {l : List Nat} {m : Memory},
    (∀ i ∈ l, b + i < Config.memSize) → m.wf = true →
    (l.foldl (landByte mask b done) m).read (b + j) =
      if j ∈ l ∧ mask.getLsbD j then done.read (b + j) else m.read (b + j)
  | [], _, _, _ => by simp
  | i :: l, m, hl, hm => by
    rw [List.forall_mem_cons] at hl
    obtain ⟨hi, hl⟩ := hl
    rw [List.foldl_cons, read_foldl_landByte hl (landByte_wf hm hi), read_landByte hm]
    simp only [List.mem_cons, or_comm (a := j = i), or_and_right, ite_or]

/-- Each byte of the footprint is the completed command's where the mask has its bit, else as before. -/
theorem read_landBytes {mask : BitVec 8} {b : Nat} {done m : Memory} (hb : b + 8 ≤ Config.memSize)
    (hm : m.wf = true) {j : Nat} (hj : j < 8) :
    (landBytes mask b done m).read (b + j) =
      if mask.getLsbD j then done.read (b + j) else m.read (b + j) := by
  have hinMem : ∀ i ∈ List.range 8, b + i < Config.memSize := fun i hi => by
    rw [List.mem_range] at hi
    omega
  rw [landBytes_eq_foldl, read_foldl_landByte hinMem hm]
  simp only [List.mem_range, hj, true_and]

/-- Performing a descriptor reads neither the inputs nor the phase. -/
theorem descriptorNext_setInterface (d : Descriptor) (s : State) (rest : List Input) (ph : Phase) :
    descriptorNext d { s with inputs := rest, phase := ph } = { descriptorNext d s with inputs := rest } := by
  rw [descriptorNext, descriptorNext]
  cases decode d with
  | error _ => rfl
  | ok i =>
    by_cases h : instrStatus s.keyValid i = .ok
    · simp only [instrNext, if_pos h]
      cases i <;> rfl
    · simp only [instrNext, if_neg h]
      rfl

/-- Settles O42: the fields of `abandonCommand`, and of MEM what `landBytes` does in the footprint and outside it. -/
theorem resetWhileBusyAbandons : Obligations.ResetWhileBusyAbandons := by
  intro s d hab hm
  obtain ⟨ph, hstep⟩ := step_abandons hab
  refine ⟨_, hstep, rfl, rfl, rfl, rfl, rfl, rfl, ?_⟩
  rw [abandonCommand, abandonedMem_eq, descriptorNext_setInterface]
  cases hfoot : outputFootprint s.keyValid d with
  | none => rfl
  | some b =>
    obtain ⟨_, -, -, -, hb⟩ := outputFootprint_some hfoot
    exact ⟨fun _ hx => landBytes_outside _ b _ _ hx, _, performDescriptor_eq d s, fun _ hj => read_landBytes hb hm hj⟩

end Sys2Proof.Machine
end
